-- ==== Sys2Proof/Word.lean ====
section
/-! DEFINITION. The units of data of QRSD: the byte and the 4-bit mode indicator (00_scope.md R15, R16). -/

namespace Sys2Proof

/-- A codeword, an output byte: 8 bits, bit 7 the most significant (R15, R19). -/
abbrev Byte := BitVec 8

/-- A mode indicator: the first 4 bits of a segment, the first stream bit its bit 3 (R72). -/
abbrev Nibble := BitVec 4

end Sys2Proof
end

