-- ==== Sys2Proof/Config.lean ====
section
/-! DEFINITION. What an implementation of QRSD fixes (00_scope.md R12, R13): the codeword buffer's capacity CW_DEPTH and the
widths derived from it. The capacity itself is carried in State (field cwDepth, written by no transition), so that every
statement over all states is one for every capacity; only the capacity of State.reset is chosen here. -/

namespace Sys2Proof.Config

/-- The identity string of the block (R3, decision D1 of the spec). -/
def identity : String := "QRSD-KScan-v1to9"

/-- DESIGN CHOICE (log entry 1, unsafe): CW_DEPTH of the machine `State.reset` starts. R12 gives no value ("a named parameter
with no value fixed by the source"). No statement rests on it. -/
def cwDepthAtReset : Nat := 256

/-- The least `k` with `n <= 2^k`, that is `ceil(log2 n)` for `n >= 1`. -/
def clog2 (n : Nat) : Nat := if n ≤ 1 then 0 else Nat.log2 (n - 1) + 1

/-- `LEN_W = ceil(log2(CW_DEPTH + 1))`, the width of a buffer length (R12). -/
def lenW (depth : Nat) : Nat := clog2 (depth + 1)

/-- `AW = max(1, ceil(log2(CW_DEPTH)))`, the width of a byte address (R12). -/
def addrW (depth : Nat) : Nat := max 1 (clog2 depth)

/-- `CUR_W = LEN_W + 3`, the width of the bit cursor (R12). -/
def curW (depth : Nat) : Nat := lenW depth + 3

/-- The width of the Kanji skip adder, `CUR_W + 12` (R13). -/
def kanjiAdderW (depth : Nat) : Nat := curW depth + 12

end Sys2Proof.Config
end

