-- ==== Sys2Proof/Syntax.lean ====
section
/-! DEFINITION. The syntax of QRSD: the instructions (one constructor per row of spec/opcode_table.json), the input ports
whose strobes carry the host commands (10_state.md R34), and the assembler notation for codeword streams (30_encoding.md
R82, R83). -/

namespace Sys2Proof

/-- The rows of spec/opcode_table.json. The 16 segment kinds are named by their mode indicator (R72); the three host
commands carry the values of their ports (R161, R162, R166). -/
inductive Instr where
  | term
  | num
  | alnum
  | byte
  | kanji
  | unsup0011
  | unsup0101
  | unsup0110
  | unsup0111
  | unsup1001
  | unsup1010
  | unsup1011
  | unsup1100
  | unsup1101
  | unsup1110
  | unsup1111
  | load (a : Nat) (b : Byte)
  | start (n : Nat)
  | pop
  deriving DecidableEq, Repr

/-- The input ports of R34 at one rising edge (`clk` is the edge itself). `cwAddr` is `AW` bits and `startLen` is `LEN_W`
bits wide; as the widths depend on CW_DEPTH the two are numbers, and `PortIn.wf` says that they fit. -/
structure PortIn where
  rst : Bool
  cwWe : Bool
  cwAddr : Nat
  cwWdata : Byte
  start : Bool
  startLen : Nat
  outReady : Bool
  deriving DecidableEq, Repr

/-- The ports with every strobe low. -/
def PortIn.quiet : PortIn :=
  { rst := false, cwWe := false, cwAddr := 0, cwWdata := 0, start := false, startLen := 0, outReady := false }

/-- An encoded instruction: a mode indicator in the codeword stream, or a vector of port values at an edge. -/
inductive Code where
  | mode (m : Nibble)
  | ports (p : PortIn)
  deriving DecidableEq, Repr

/-- A base statement of the assembler notation (R82). -/
inductive Stmt where
  /-- `MODE m` -/
  | mode (m : Nibble)
  /-- `FIELD w, v` -/
  | field (w v : Nat)
  /-- `ALIGN` -/
  | align
  /-- `BYTES b0, b1, ...` -/
  | bytes (bs : List Byte)
  deriving DecidableEq, Repr

/-- A pseudo-instruction of the assembler notation (R83). Strings are lists of ASCII bytes. -/
inductive Pseudo where
  /-- `TERM` -/
  | term
  /-- `NUM "d1...dc"` -/
  | num (ds : List Byte)
  /-- `ALNUM "s"` -/
  | alnum (s : List Byte)
  /-- `BYTE "s"` or `BYTE b0, ...` -/
  | byte (bs : List Byte)
  /-- `KANJI c`: `13*c` zero bits -/
  | kanjiZeros (c : Nat)
  /-- `KANJI c, v0, ...` -/
  | kanji (vs : List (BitVec 13))
  /-- `PADCW n` -/
  | padCw (n : Nat)
  deriving DecidableEq, Repr

/-- One line of an assembler program: a base statement or a pseudo-instruction. -/
inductive AsmLine where
  | base (st : Stmt)
  | pseudo (p : Pseudo)
  deriving DecidableEq, Repr

end Sys2Proof
end

