-- ==== Sys2Proof/WellFormed.lean ====
section
/-! DEFINITION. Which instructions, port vectors and base statements are well formed: every number fits its port or field
(10_state.md R34, 30_encoding.md R82). The pseudo-instructions' check stands beside the assembler
(Machine/Assembler.lean), as it needs the alphanumeric table. -/

namespace Sys2Proof

/-- The operands of an instruction fit their ports, for a buffer of `depth` bytes: `cw_addr` has `AW` bits and `start_len`
has `LEN_W` bits (R34). A segment's mode indicator has no operand. -/
def Instr.wf (depth : Nat) : Instr → Bool
  | .load a _ => decide (a < 2 ^ Config.addrW depth)
  | .start n => decide (n < 2 ^ Config.lenW depth)
  | .pop => true
  | .term | .num | .alnum | .byte | .kanji => true
  | .unsup0011 | .unsup0101 | .unsup0110 | .unsup0111 => true
  | .unsup1001 | .unsup1010 | .unsup1011 | .unsup1100 | .unsup1101 | .unsup1110 | .unsup1111 => true

/-- The port values fit their ports (R34). -/
def PortIn.wf (depth : Nat) (p : PortIn) : Bool :=
  decide (p.cwAddr < 2 ^ Config.addrW depth) && decide (p.startLen < 2 ^ Config.lenW depth)

/-- `FIELD w, v` needs `0 <= v < 2^w` (R82). That `BYTES` stands at a byte boundary depends on the position and is checked
by the assembler. -/
def Stmt.wf : Stmt → Bool
  | .field w v => decide (v < 2 ^ w)
  | .mode _ => true
  | .align => true
  | .bytes _ => true

end Sys2Proof
end

