-- ==== Sys2Proof/Decode.lean ====
section
/-! DEFINITION. The encodings of QRSD: the field widths (00_scope.md R11), the mode indicator map (30_encoding.md R72), the
decoder from stream bits and bytes (total, rejecting by name), the decoding of port strobes into host commands
(45_host_commands.md), and the encoder. -/

namespace Sys2Proof

/-! The twelve field widths of R11, in bits. -/

/-- `W_MODE` -/
abbrev wMode : Nat := 4
/-- `W_CC_NUM` -/
abbrev wCcNum : Nat := 10
/-- `W_CC_ALNUM` -/
abbrev wCcAlnum : Nat := 9
/-- `W_CC_BYTE` -/
abbrev wCcByte : Nat := 8
/-- `W_CC_KANJI` -/
abbrev wCcKanji : Nat := 8
/-- `W_NUM3` -/
abbrev wNum3 : Nat := 10
/-- `W_NUM2` -/
abbrev wNum2 : Nat := 7
/-- `W_NUM1` -/
abbrev wNum1 : Nat := 4
/-- `W_AN2` -/
abbrev wAn2 : Nat := 11
/-- `W_AN1` -/
abbrev wAn1 : Nat := 6
/-- `W_BYTE` -/
abbrev wByte : Nat := 8
/-- `W_KANJI` -/
abbrev wKanji : Nat := 13

/-- The mode indicator map of R72. All 16 values are listed, so the last arm stands for `1111` alone. -/
def decodeMode (m : Nibble) : Instr :=
  match m.toNat with
  | 0b0000 => .term
  | 0b0001 => .num
  | 0b0010 => .alnum
  | 0b0011 => .unsup0011
  | 0b0100 => .byte
  | 0b0101 => .unsup0101
  | 0b0110 => .unsup0110
  | 0b0111 => .unsup0111
  | 0b1000 => .kanji
  | 0b1001 => .unsup1001
  | 0b1010 => .unsup1010
  | 0b1011 => .unsup1011
  | 0b1100 => .unsup1100
  | 0b1101 => .unsup1101
  | 0b1110 => .unsup1110
  | _ => .unsup1111

/-- Why the stream decoder gives no instruction. -/
inductive Reject where
  /-- Fewer than the 4 bits of a mode indicator are there; only so many bits are left. -/
  | noModeIndicator (bitsLeft : Nat)
  deriving DecidableEq, Repr

/-- The bits of `v` as a field of width `w`, most significant bit first (R71). -/
def bitsOf (w v : Nat) : List Bool := ((List.range w).reverse).map fun j => v.testBit j

/-- The bits of bytes in stream order: bit 7 of the first byte first (R57). -/
def streamBits (bs : List Byte) : List Bool := bs.flatMap fun b => bitsOf 8 b.toNat

/-- The number whose bits, the first the most significant, are these (R55). -/
def bitsVal (bs : List Bool) : Nat := bs.foldl (fun v b => 2 * v + b.toNat) 0

/-- The instruction whose mode indicator these stream bits begin with (R70, R72). -/
def decodeBits (bits : List Bool) : Except Reject Instr :=
  if bits.length < wMode then .error (.noModeIndicator bits.length)
  else .ok (decodeMode (BitVec.ofNat 4 (bitsVal (bits.take wMode))))

/-- The instruction that codeword bytes begin with. -/
def decodeBytes (bs : List Byte) : Except Reject Instr := decodeBits (streamBits bs)

/-- The host commands the port strobes give at one edge, in the order they are taken (R186): LOAD, START, POP; none of them
when `rst = 1` (R200). -/
def decodePorts (p : PortIn) : List Instr :=
  if p.rst then []
  else
    (if p.cwWe then [Instr.load p.cwAddr p.cwWdata] else [])
      ++ (if p.start then [Instr.start p.startLen] else [])
      ++ (if p.outReady then [Instr.pop] else [])

/-- The instructions a code stands for. -/
def decode : Code → List Instr
  | .mode m => [decodeMode m]
  | .ports p => decodePorts p

/-- The code of an instruction: its mode indicator (R72), or its strobe with the ports that carry its operands
(R161, R162, R166) and every other strobe low. -/
def encode : Instr → Code
  | .term => .mode 0b0000
  | .num => .mode 0b0001
  | .alnum => .mode 0b0010
  | .byte => .mode 0b0100
  | .kanji => .mode 0b1000
  | .unsup0011 => .mode 0b0011
  | .unsup0101 => .mode 0b0101
  | .unsup0110 => .mode 0b0110
  | .unsup0111 => .mode 0b0111
  | .unsup1001 => .mode 0b1001
  | .unsup1010 => .mode 0b1010
  | .unsup1011 => .mode 0b1011
  | .unsup1100 => .mode 0b1100
  | .unsup1101 => .mode 0b1101
  | .unsup1110 => .mode 0b1110
  | .unsup1111 => .mode 0b1111
  | .load a b => .ports { PortIn.quiet with cwWe := true, cwAddr := a, cwWdata := b }
  | .start n => .ports { PortIn.quiet with start := true, startLen := n }
  | .pop => .ports { PortIn.quiet with outReady := true }

/-- The codeword bytes of a table word: the table numbers the mode indicator's bits 3..0, so its unit is the 4-bit nibble;
nibble `j` of `w` is the `j`-th in the stream, the first in bits 7..4 of the first byte. Bits at and above `nbits` are zero,
up to two bytes at least: 14 bits are the longest segment whose operand bits are all zero (NUM with count 0, R119). -/
def tableBytes (nbits w : Nat) : List Byte :=
  (List.range (max 2 ((nbits + 7) / 8))).map fun k =>
    BitVec.ofNat 8 (16 * (w % 2 ^ nbits / 16 ^ (2 * k) % 16) + w % 2 ^ nbits / 16 ^ (2 * k + 1) % 16)

/-- The instruction the decoder reads from a table word (the host's numbering of bits). A row without bits (the three host
commands: `nbits` below 4) is no stream word and is refused. -/
def decodeTableWord (nbits w : Nat) : Option Instr :=
  if nbits < wMode then none
  else
    match decodeBytes (tableBytes nbits w) with
    | .ok i => some i
    | .error _ => none

end Sys2Proof
end

