-- ==== Sys2Proof/Machine/State.lean ====
section
/-! DEFINITION. The state of QRSD as plain data (10_state.md R20 to R39), the faults and refusals, and the state after
reset (R38, R202). -/

namespace Sys2Proof.Machine

/-- The decoder FSM's phase (R23). -/
inductive Phase where
  | idle
  | hdr
  | cnt
  | num
  | alnum
  | byte
  | kanji
  | done
  deriving DecidableEq, Repr

/-- The halt reason `hr` (R27). -/
inductive HaltReason where
  | none
  | term
  | unsup
  | exhaust
  deriving DecidableEq, Repr

/-- The codeword RAM `CW` with the model's `wr` (R29, R30): the bytes some LOAD has written since power-on, addresses
strictly rising. An address that is not listed has `wr` false. -/
abbrev Memory := List Host.Cell

/-- The inputs of one rising edge of `clk`: the port values, and whether the decoder, if its step is enabled, takes it at
this edge (R209 gives no number of edges for a step; R160 allows any interleaving). -/
structure Edge where
  ports : PortIn
  decoderGo : Bool
  deriving DecidableEq, Repr

/-- An edge at which the host does nothing and the decoder takes its step. -/
def Edge.quiet : Edge := { ports := PortIn.quiet, decoderGo := true }

/-- The state. `phase` to `hr` are the decode registers (R21 to R27); `cw` is the codeword RAM; the last three are the
model's own: the instance's parameter CW_DEPTH, the host's record of the bytes it took, and the inputs of the coming
edges. -/
structure State where
  /-- The decoder FSM's phase (R23). -/
  phase : Phase
  /-- The buffer length of the current decode, in bytes; `LEN_W` bits wide (R22). -/
  L : Nat
  /-- The bit cursor; `CUR_W` bits wide (R21). -/
  cur : Nat
  /-- The mode indicator of the segment being decoded (R24). -/
  mode : Nibble
  /-- The remaining character count of the current segment (R25). -/
  rem : BitVec 10
  /-- The pending-output queue, its front first (R26). -/
  pq : List Byte
  /-- The halt reason (R27). -/
  hr : HaltReason
  /-- The codeword RAM and its written marks (R29, R30). -/
  cw : Memory
  /-- The configuration parameter CW_DEPTH of this instance (R12); no transition writes it (log entry 1). -/
  cwDepth : Nat
  /-- The bytes the host has taken since the last START that took effect, in order (R165; log entry 2). -/
  taken : List Byte
  /-- The inputs of the coming rising edges, the next first; when it is empty every edge is `Edge.quiet` (log entry 3). -/
  inputs : List Edge
  deriving DecidableEq, Repr

/-- Why a step faults. -/
inductive Fault where
  /-- `UNINIT_READ(a)` (R66, R183): raised by a decoder step that reads codeword byte `a`, which no LOAD has written since
  power-on. Safe: the hardware goes on with what the RAM holds, and no claim holds of a faulted run. -/
  | uninitRead (a : Nat)
  /-- Raised by the meaning of a segment instruction that is asked for a step while the decoder is in the count or the body
  of another segment, a step the spec does not have (R92: an enabled step does the action of its phase). Safe: no step
  from a state that meets the invariant raises it. -/
  | outOfPhase
  deriving DecidableEq, Repr

/-- Why an instruction is refused. -/
inductive Refusal where
  /-- Raised by an arm of `exec` whose instruction has no meaning yet. Safe: nothing is claimed of it. -/
  | notModelled (mnemonic : String)
  deriving DecidableEq, Repr

/-- What a meaning answers. -/
abbrev Result := Host.Outcome State Fault Refusal

/-- The reset state of an instance with a buffer of `depth` bytes and no codeword loaded (R38, R202). -/
def State.resetWith (depth : Nat) : State :=
  { phase := .idle
    L := 0
    cur := 0
    mode := 0b0000
    rem := 0
    pq := []
    hr := .none
    cw := []
    cwDepth := depth
    taken := []
    inputs := [] }

/-- The machine right after reset (R202: "The model's initial state is the reset state of 10_state.md rule R38 with every
`wr[a]` false"). The capacity is the model's (log entry 1). -/
def State.reset : State := State.resetWith Config.cwDepthAtReset

end Sys2Proof.Machine
end

