-- ==== Sys2Proof/Machine/Flags.lean ====
section
/-! DEFINITION. The status and output ports as functions of the state (10_state.md R27, R36, R37), and when a decoder step
is enabled (40_segment_loop.md R92). -/

namespace Sys2Proof.Machine

/-- The 2-bit code of a halt reason (R27). -/
def HaltReason.code : HaltReason → BitVec 2
  | .none => 0b00
  | .term => 0b01
  | .unsup => 0b10
  | .exhaust => 0b11

/-- Port `busy`: a decode is in progress (R36). -/
def State.busy (s : State) : Bool :=
  match s.phase with
  | .hdr | .cnt | .num | .alnum | .byte | .kanji => true
  | .idle | .done => false

/-- Port `done`: the last decode halted and its output is fully transferred (R36). -/
def State.done (s : State) : Bool := decide (s.phase = .done) && s.pq.isEmpty

/-- Port `halt_reason` (R36). -/
def State.haltReason (s : State) : BitVec 2 := s.hr.code

/-- Port `out_valid` (R37). -/
def State.outValid (s : State) : Bool := !s.pq.isEmpty

/-- Port `out_data` may hold `b` (R37): the front of `pq` when `out_valid`; unspecified otherwise, so every byte is allowed
then (log entry 4). -/
def State.outDataMayBe (s : State) (b : Byte) : Bool := s.pq.head?.all fun x => b == x

/-- A decoder step is enabled exactly when `busy` holds and `pq` is empty (R92). -/
def State.decoderEnabled (s : State) : Bool := s.busy && s.pq.isEmpty

end Sys2Proof.Machine
end

