-- ==== Sys2Proof/Machine/Ops.lean ====
section
/-! DEFINITION. The named operations over the codeword RAM and the registers: reading and writing CW (20_memory.md R51,
R66; 45_host_commands.md R161), the unread bits (R54), emitting (R61), halting (40_segment_loop.md R100, which R187 makes
the one change of control there is in place of a trap entry; there is no return, R188), and reset (70_reset_and_hazards.md
R200). -/

namespace Sys2Proof.Machine

/-! The codeword RAM. -/

/-- Byte `a` of the RAM, if a LOAD has written it (R51, R30). -/
def Memory.read : Memory → Nat → Option Byte
  | [], _ => none
  | (k, b) :: m, a => if k = a then some b else Memory.read m a

/-- `CW[a] <- b; wr[a] <- true` (R161), keeping the addresses strictly rising. -/
def Memory.write : Memory → Nat → Byte → Memory
  | [], a, b => [(a, b)]
  | (k, c) :: m, a, b =>
    if a < k then (a, b) :: (k, c) :: m
    else if a = k then (a, b) :: m
    else (k, c) :: Memory.write m a b

/-- Every address of the list is at least `lo` and the addresses rise strictly. -/
def Memory.rising : Memory → Nat → Bool
  | [], _ => true
  | (k, _) :: m, lo => decide (lo ≤ k) && Memory.rising m (k + 1)

/-- The canonical form: addresses strictly rising. No byte value stands for "unwritten", so every listed cell is one a LOAD
wrote. -/
def Memory.wf (m : Memory) : Bool := Memory.rising m 0

/-- Bytes written at rising addresses from `a`. -/
def Memory.writeFrom (m : Memory) (a : Nat) : List Byte → Memory
  | [] => m
  | b :: bs => Memory.writeFrom (Memory.write m a b) (a + 1) bs

/-! The registers. -/

/-- `Avail()`, the unread bits of the current decode (R54). -/
def State.avail (s : State) : Nat := 8 * s.L - s.cur

/-- The cursor moves on by `k` bits. -/
def State.advance (s : State) (k : Nat) : State := { s with cur := s.cur + k }

/-- `Emit(b)` for each byte of the list in turn (R61). -/
def State.emit (s : State) (bs : List Byte) : State := { s with pq := s.pq ++ bs }

/-- `rem <- n` (R25): a count field, zero-extended (R79). -/
def State.setRem (s : State) (n : Nat) : State := { s with rem := BitVec.ofNat 10 n }

/-- `phase <- p`. -/
def State.goto (s : State) (p : Phase) : State := { s with phase := p }

/-- `mode <- m` (R24). -/
def State.setMode (s : State) (m : Nibble) : State := { s with mode := m }

/-- `Halt(r)`: `hr <- r` and `phase <- DONE`, and nothing else (R100, R187). -/
def State.halt (s : State) (r : HaltReason) : State := { s with hr := r, phase := .done }

/-- What an edge with `rst = 1` does: every register takes its reset value; CW and its written marks stay (R200, R201, R38).
The capacity, the host's record and the coming inputs are outside the block. -/
def State.applyReset (s : State) : State :=
  { s with phase := .idle, L := 0, cur := 0, mode := 0b0000, rem := 0, pq := [], hr := .none }

end Sys2Proof.Machine
end

