-- ==== Sys2Proof/Machine/Operands.lean ====
section
/-! DEFINITION. The operand forms: one stream bit (20_memory.md R57), the bit-read primitive ReadBits with its short read
(R55, R56), the digit byte `D` (41_numeric.md R112) and the alphanumeric table with its range check (42_alphanumeric.md
R125, R129). -/

namespace Sys2Proof.Machine

/-- `Bit(i) = (CW[i / 8] / 2^(7 - (i mod 8))) mod 2` (R57), or the fault of reading a byte no LOAD wrote (R66). -/
def readBit (m : Memory) (i : Nat) : Except Fault Nat :=
  match Memory.read m (i / 8) with
  | some b => .ok (b.toNat / 2 ^ (7 - i % 8) % 2)
  | none => .error (.uninitRead (i / 8))

/-- `k` bits from stream bit `i` on, each shifted into `v` from the right (the loop of R55). -/
def readBitsLoop (m : Memory) (v i : Nat) : Nat → Except Fault Nat
  | 0 => .ok v
  | k + 1 =>
    match readBit m i with
    | .ok b => readBitsLoop m (2 * v + b) (i + 1) k
    | .error f => .error f

/-- `ReadBits(n)` (R55): the value of the next `min(n, Avail())` bits, right-aligned when short (R56), and the state with the
cursor moved past them. -/
def readBits (n : Nat) (s : State) : Except Fault (Nat × State) :=
  match readBitsLoop s.cw 0 s.cur (min n s.avail) with
  | .ok v => .ok (v, s.advance (min n s.avail))
  | .error f => .error f

/-- A step that begins with `ReadBits(n)`: it goes on with the value and the advanced state, or faults (R92). -/
def withField (n : Nat) (s : State) (k : Nat → State → Result) : Result :=
  match readBits n s with
  | .ok (v, s') => k v s'
  | .error f => .fault f

/-- `D(d) = 0x30 + d` (R112). -/
def digit (d : Nat) : Byte := BitVec.ofNat 8 (0x30 + d)

/-- The alphanumeric table `ANT[0..44]`: the ASCII bytes of its 45 symbols, in index order (R31, R125). -/
def ant : List Byte :=
  [0x30, 0x31, 0x32, 0x33, 0x34, 0x35, 0x36, 0x37, 0x38, 0x39]
    ++ [0x41, 0x42, 0x43, 0x44, 0x45, 0x46, 0x47, 0x48, 0x49, 0x4A, 0x4B, 0x4C, 0x4D]
    ++ [0x4E, 0x4F, 0x50, 0x51, 0x52, 0x53, 0x54, 0x55, 0x56, 0x57, 0x58, 0x59, 0x5A]
    ++ [0x20, 0x24, 0x25, 0x2A, 0x2B, 0x2D, 0x2E, 0x2F, 0x3A]

/-- `A(i)`: the bytes an index gives, none when it is 45 or more (R127, R129). -/
def antBytes (i : Nat) : List Byte := if i < 45 then [ant.getD i 0] else []

/-- The bytes of a Numeric group of three (R113), for every value (R117). -/
def tripleBytes (v : Nat) : List Byte := [digit (v / 100), digit (v / 10 % 10), digit (v % 10)]

/-- The bytes of a Numeric group of two (R114). -/
def pairBytes (v : Nat) : List Byte := [digit (v / 10), digit (v % 10)]

/-- The bytes of an Alphanumeric pair: the first index first (R128). -/
def antPairBytes (v : Nat) : List Byte := antBytes (v / 45) ++ antBytes (v % 45)

end Sys2Proof.Machine
end

