-- ==== Sys2Proof/Machine/SegmentLoop.lean ====
section
/-! DEFINITION. The segment loop (40_segment_loop.md): the steps every segment shares, the terminator (R96) and the eleven
unsupported modes (R98). -/

namespace Sys2Proof.Machine

/-- The HDR step of a segment whose mode indicator the fetch has read: EXHAUST when fewer than 4 bits are left (R93, R97),
else past the indicator and on with `k`. -/
def headerStep (s : State) (k : State → State) : Result :=
  if s.avail < wMode then .next (s.halt .exhaust) else .next (k (s.advance wMode))

/-- The step of a segment that is its mode indicator alone (R77, R78): in HDR it halts with `r`. While the decoder has no
step it holds (R92). -/
def haltSegment (r : HaltReason) (s : State) : Result :=
  if s.decoderEnabled then
    match s.phase with
    | .hdr => headerStep s fun s' => s'.halt r
    | .idle | .cnt | .num | .alnum | .byte | .kanji | .done => .fault .outOfPhase
  else .next s

/-- A supported mode is latched and the count is next (R94). -/
def latchMode (m : Nibble) (s : State) : State := (s.setMode m).goto .cnt

/-- The CNT step: `rem <- ReadBits(w); phase <- p` (R95). -/
def countStep (w : Nat) (p : Phase) (s : State) : Result :=
  withField w s fun v s' => .next ((s'.setRem v).goto p)

/-- The step of a segment with mode indicator `m`, a count of `w` bits and a body in phase `p`: the action of the phase the
decoder is in (R92 to R95). While the decoder has no step it holds. -/
def countedSegment (m : Nibble) (w : Nat) (p : Phase) (body : State → Result) (s : State) : Result :=
  if s.decoderEnabled then
    match s.phase with
    | .hdr => headerStep s (latchMode m)
    | .cnt => if s.mode = m then countStep w p s else .fault .outOfPhase
    | q => if q = p then body s else .fault .outOfPhase
  else .next s

/-- TERM, mode `0000` (R96). -/
def execTerm (s : State) : Result := haltSegment .term s

/-- UNSUP, mode `0011` (R98). -/
def execUnsup0011 (s : State) : Result := haltSegment .unsup s

/-- UNSUP, mode `0101` (R98). -/
def execUnsup0101 (s : State) : Result := haltSegment .unsup s

/-- UNSUP, mode `0110` (R98). -/
def execUnsup0110 (s : State) : Result := haltSegment .unsup s

/-- UNSUP, mode `0111` (R98). -/
def execUnsup0111 (s : State) : Result := haltSegment .unsup s

/-- UNSUP, mode `1001` (R98). -/
def execUnsup1001 (s : State) : Result := haltSegment .unsup s

/-- UNSUP, mode `1010` (R98). -/
def execUnsup1010 (s : State) : Result := haltSegment .unsup s

/-- UNSUP, mode `1011` (R98). -/
def execUnsup1011 (s : State) : Result := haltSegment .unsup s

/-- UNSUP, mode `1100` (R98). -/
def execUnsup1100 (s : State) : Result := haltSegment .unsup s

/-- UNSUP, mode `1101` (R98). -/
def execUnsup1101 (s : State) : Result := haltSegment .unsup s

/-- UNSUP, mode `1110` (R98). -/
def execUnsup1110 (s : State) : Result := haltSegment .unsup s

/-- UNSUP, mode `1111` (R98). -/
def execUnsup1111 (s : State) : Result := haltSegment .unsup s

end Sys2Proof.Machine
end

