-- ==== Sys2Proof/Machine/Alphanumeric.lean ====
section
/-! DEFINITION. Alphanumeric mode (42_alphanumeric.md). -/

namespace Sys2Proof.Machine

/-- The ALNUM body step (R127): pairs and the single (R128), out-of-range indices dropped (R129), with no check of the
unread bits (R130). -/
def alnumBody (s : State) : Result :=
  if s.rem.toNat = 0 then .next (s.goto .hdr)
  else if 2 ≤ s.rem.toNat then
    withField wAn2 s fun v s' => .next ((s'.emit (antPairBytes v)).setRem (s.rem.toNat - 2))
  else
    withField wAn1 s fun v s' => .next ((s'.emit (antBytes v)).setRem 0)

/-- ALNUM, mode `0010` (R126): one decoder step of an Alphanumeric segment, in the phase the decoder is in. -/
def execAlnum (s : State) : Result := countedSegment 0b0010 wCcAlnum .alnum alnumBody s

end Sys2Proof.Machine
end

