-- ==== Sys2Proof/Machine/ByteMode.lean ====
section
/-! DEFINITION. Byte mode (43_byte.md). -/

namespace Sys2Proof.Machine

/-- The BYTE body step (R141): one byte as read, or the segment abandoned when fewer than 8 bits are left (R142). -/
def byteBody (s : State) : Result :=
  if s.rem.toNat = 0 then .next (s.goto .hdr)
  else if s.avail < wByte then .next ((s.setRem 0).goto .hdr)
  else
    withField wByte s fun v s' => .next ((s'.emit [BitVec.ofNat 8 v]).setRem (s.rem.toNat - 1))

/-- BYTE, mode `0100` (R140): one decoder step of a Byte segment, in the phase the decoder is in. -/
def execByte (s : State) : Result := countedSegment 0b0100 wCcByte .byte byteBody s

end Sys2Proof.Machine
end

