-- ==== Sys2Proof/Machine/HostCommands.lean ====
section
/-! DEFINITION. The host commands LOAD, START and POP (45_host_commands.md). -/

namespace Sys2Proof.Machine

/-- LOAD (R161): `CW[a] <- b; wr[a] <- true`; no effect while busy (R164) or at an address outside the buffer. -/
def execLoad (a : Nat) (b : Byte) (s : State) : Result :=
  if s.busy || decide (s.cwDepth ≤ a) then .next s else .next { s with cw := Memory.write s.cw a b }

/-- START (R162): a new decode of `n` bytes; no effect while busy (R163) or when the buffer cannot hold `n` bytes. The host's
record of bytes taken begins anew with the decode (R165). -/
def execStart (n : Nat) (s : State) : Result :=
  if s.busy || decide (s.cwDepth < n) then .next s
  else
    .next { s with phase := .hdr, L := n, cur := 0, mode := 0b0000, rem := 0, pq := [], hr := .none, taken := [] }

/-- POP (R166): the host takes the front of `pq`; nothing happens while `out_valid` is low. -/
def execPop (s : State) : Result :=
  match s.pq with
  | [] => .next s
  | b :: rest => .next { s with pq := rest, taken := s.taken ++ [b] }

end Sys2Proof.Machine
end

