-- ==== Sys2Proof/Machine/KanjiMode.lean ====
section
/-! DEFINITION. Kanji mode: the segment is skipped (44_kanji.md). -/

namespace Sys2Proof.Machine

/-- The KANJI skip step (R151): `cur <- min(cur + 13*rem, 8*L)`, nothing read, nothing emitted; the clamp is R152's. -/
def kanjiBody (s : State) : Result :=
  .next (({ s with cur := min (s.cur + wKanji * s.rem.toNat) (8 * s.L) }.setRem 0).goto .hdr)

/-- KANJI, mode `1000` (R150): one decoder step of a Kanji segment, in the phase the decoder is in. -/
def execKanji (s : State) : Result := countedSegment 0b1000 wCcKanji .kanji kanjiBody s

end Sys2Proof.Machine
end

