-- ==== Sys2Proof/Machine/Numeric.lean ====
section
/-! DEFINITION. Numeric mode (41_numeric.md). -/

namespace Sys2Proof.Machine

/-- The NUM body step (R111): groups of three, two and one digits (R113, R114, R115), with no check of the unread bits
(R118). -/
def numBody (s : State) : Result :=
  if s.rem.toNat = 0 then .next (s.goto .hdr)
  else if 3 ≤ s.rem.toNat then
    withField wNum3 s fun v s' => .next ((s'.emit (tripleBytes v)).setRem (s.rem.toNat - 3))
  else if s.rem.toNat = 2 then
    withField wNum2 s fun v s' => .next ((s'.emit (pairBytes v)).setRem 0)
  else
    withField wNum1 s fun v s' => .next ((s'.emit [digit v]).setRem 0)

/-- NUM, mode `0001` (R110): one decoder step of a Numeric segment, in the phase the decoder is in. -/
def execNum (s : State) : Result := countedSegment 0b0001 wCcNum .num numBody s

end Sys2Proof.Machine
end

