-- ==== Sys2Proof/Machine/Dispatch.lean ====
section
/-! DEFINITION. One arm per instruction. -/

namespace Sys2Proof.Machine

/-- What an instruction does: one transition of the machine (45_host_commands.md R160). -/
def exec (i : Instr) (s : State) : Host.Outcome State Fault Refusal :=
  match i with
  | .term => Sys2Proof.Machine.execTerm s
  | .num => Sys2Proof.Machine.execNum s
  | .alnum => Sys2Proof.Machine.execAlnum s
  | .byte => Sys2Proof.Machine.execByte s
  | .kanji => Sys2Proof.Machine.execKanji s
  | .unsup0011 => Sys2Proof.Machine.execUnsup0011 s
  | .unsup0101 => Sys2Proof.Machine.execUnsup0101 s
  | .unsup0110 => Sys2Proof.Machine.execUnsup0110 s
  | .unsup0111 => Sys2Proof.Machine.execUnsup0111 s
  | .unsup1001 => Sys2Proof.Machine.execUnsup1001 s
  | .unsup1010 => Sys2Proof.Machine.execUnsup1010 s
  | .unsup1011 => Sys2Proof.Machine.execUnsup1011 s
  | .unsup1100 => Sys2Proof.Machine.execUnsup1100 s
  | .unsup1101 => Sys2Proof.Machine.execUnsup1101 s
  | .unsup1110 => Sys2Proof.Machine.execUnsup1110 s
  | .unsup1111 => Sys2Proof.Machine.execUnsup1111 s
  | .load a b => Sys2Proof.Machine.execLoad a b s
  | .start n => Sys2Proof.Machine.execStart n s
  | .pop => Sys2Proof.Machine.execPop s

end Sys2Proof.Machine
end

