-- ==== Sys2Proof/Machine/Fetch.lean ====
section
/-! DEFINITION. What an enabled decoder step runs (40_segment_loop.md R92, R93): in HDR the segment whose mode indicator
stands at the cursor, in every other phase the segment the decoder is in; and where a table word is placed for it. -/

namespace Sys2Proof.Machine

/-- What the decoder's next step is to run. -/
inductive Fetched where
  /-- a step of this segment -/
  | instr (i : Instr)
  /-- no mode indicator is left: EXHAUST (R97) -/
  | exhausted
  /-- the mode indicator cannot be read (R66) -/
  | unreadable (f : Fault)
  /-- the decoder has no step in this phase (R92) -/
  | nothing
  deriving DecidableEq, Repr

/-- The loop head (R93): first the halt check, then the mode indicator. -/
def fetchHeader (s : State) : Fetched :=
  if s.avail < wMode then .exhausted
  else
    match readBits wMode s with
    | .ok (v, _) => .instr (decodeMode (BitVec.ofNat 4 v))
    | .error f => .unreadable f

/-- What the decoder's next step runs, by phase (R92, R93, R95). -/
def fetch (s : State) : Fetched :=
  match s.phase with
  | .hdr => fetchHeader s
  | .cnt => .instr (decodeMode s.mode)
  | .num => .instr .num
  | .alnum => .instr .alnum
  | .byte => .instr .byte
  | .kanji => .instr .kanji
  | .idle | .done => .nothing

/-- A started decode whose stream begins with a table word (log entry 5): its bytes (as many as the buffer holds) are in CW
from address 0, `L` is their number, the cursor is at stream bit 0 in phase HDR with nothing pending, and the next edge is
a quiet one. It stands for the host's LOADs and START (R203). -/
def placeFetchWord (s : State) (nbits w : Nat) : State :=
  { s with
    phase := .hdr
    L := min (tableBytes nbits w).length s.cwDepth
    cur := 0
    mode := 0b0000
    rem := 0
    pq := []
    hr := .none
    cw := Memory.writeFrom s.cw 0 ((tableBytes nbits w).take s.cwDepth)
    inputs := Edge.quiet :: s.inputs }

end Sys2Proof.Machine
end

