-- ==== Sys2Proof/Machine/Edge.lean ====
section
/-! DEFINITION. One rising edge of `clk` (45_host_commands.md R160, 60_exceptions.md R186): reset before everything, then the
host commands the strobes give in the order LOAD, START, POP, then a decoder step if the state before the edge enables one
and the edge's schedule takes it. -/

namespace Sys2Proof.Machine

/-- The inputs of the coming edge. -/
def State.nextEdge (s : State) : Edge := s.inputs.headD Edge.quiet

/-- The state with the coming edge's inputs used up. -/
def State.dropEdge (s : State) : State := { s with inputs := s.inputs.tail }

/-- Instructions one after the other, stopping at the first that gives no next state. -/
def execAll : List Instr → State → Result
  | [], s => .next s
  | i :: is, s =>
    match exec i s with
    | .next s' => execAll is s'
    | .fault f => .fault f
    | .refused r => .refused r

/-- One decoder step, of an enabled decoder (R92, R93). -/
def decoderStep (s : State) : Result :=
  match fetch s with
  | .instr i => exec i s
  | .exhausted => .next (s.halt .exhaust)
  | .unreadable f => .fault f
  | .nothing => .next s

/-- The edge `e` at state `s` (R160, R186, R200). -/
def edgeStep (e : Edge) (s : State) : Result :=
  if e.ports.rst then .next s.applyReset
  else
    match execAll (decodePorts e.ports) s with
    | .next s' => if e.decoderGo && s.decoderEnabled then decoderStep s' else .next s'
    | .fault f => .fault f
    | .refused r => .refused r

end Sys2Proof.Machine
end

