-- ==== Sys2Proof/Machine/Assembler.lean ====
section
/-! DEFINITION. The assembler notation for codeword streams (30_encoding.md R82, R83): base statements to stream bits,
pseudo-instructions to base statements, and the cutting of the stream into bytes. It is notation and no part of the
machine (decision D22 of the spec). -/

namespace Sys2Proof.Machine

/-- An ASCII decimal digit, `0x30` to `0x39` (R112). -/
def isDigit (b : Byte) : Bool := decide (0x30 ≤ b.toNat) && decide (b.toNat ≤ 0x39)

/-- The value of an ASCII decimal digit. -/
def digitVal (b : Byte) : Nat := b.toNat - 0x30

/-- `idx(ch)`, the index of a character in `ANT` (R83); 45 for one that is not there. -/
def antIdx (b : Byte) : Nat := ant.findIdx fun x => x == b

/-- A pseudo-instruction's string is one its count field holds and its characters are of its mode (R83). -/
def pseudoWf : Pseudo → Bool
  | .num ds => decide (ds.length ≤ 1023) && ds.all isDigit
  | .alnum s => decide (s.length ≤ 511) && s.all fun b => ant.contains b
  | .byte bs => decide (bs.length ≤ 255)
  | .kanjiZeros c => decide (c ≤ 255)
  | .kanji vs => decide (vs.length ≤ 255)
  | .term => true
  | .padCw _ => true

/-- A line of an assembler program is well formed (R82, R83). -/
def asmLineWf : AsmLine → Bool
  | .base st => st.wf
  | .pseudo p => pseudoWf p

/-- The groups of a digit string (R83): full groups of three as 10-bit fields, a last group of two as a 7-bit field or of
one as a 4-bit field. -/
def numGroups : List Byte → List Stmt
  | d1 :: d2 :: d3 :: ds => .field wNum3 (100 * digitVal d1 + 10 * digitVal d2 + digitVal d3) :: numGroups ds
  | [d1, d2] => [.field wNum2 (10 * digitVal d1 + digitVal d2)]
  | [d1] => [.field wNum1 (digitVal d1)]
  | [] => []

/-- The pairs of an alphanumeric string and its last single (R83). -/
def alnumGroups : List Byte → List Stmt
  | c1 :: c2 :: s => .field wAn2 (45 * antIdx c1 + antIdx c2) :: alnumGroups s
  | [c1] => [.field wAn1 (antIdx c1)]
  | [] => []

/-- `n` pad codewords, alternately `0xEC` and `0x11` (R83). -/
def padBytes : Nat → List Byte
  | 0 => []
  | 1 => [0xEC]
  | n + 2 => 0xEC :: 0x11 :: padBytes n

/-- The expansion of a pseudo-instruction that begins at stream bit `pos` (R83). DESIGN CHOICE (log entry 14): where the stream
is already longer than `n` bytes after ALIGN, `PADCW n` adds no pad byte and is not refused; R83 says only "until the stream
is `n` bytes long". -/
def expand (pos : Nat) : Pseudo → List Stmt
  | .term => [.mode 0b0000]
  | .num ds => .mode 0b0001 :: .field wCcNum ds.length :: numGroups ds
  | .alnum s => .mode 0b0010 :: .field wCcAlnum s.length :: alnumGroups s
  | .byte bs => .mode 0b0100 :: .field wCcByte bs.length :: bs.map fun b => .field wByte b.toNat
  | .kanjiZeros c => .mode 0b1000 :: .field wCcKanji c :: List.replicate c (.field wKanji 0)
  | .kanji vs => .mode 0b1000 :: .field wCcKanji vs.length :: vs.map fun v => .field wKanji v.toNat
  | .padCw n => [.align, .bytes (padBytes (n - (pos + 7) / 8))]

/-- The bits a base statement emits at stream bit `pos` (R82), or nothing where the assembler refuses it: a field value that
does not fit, BYTES off a byte boundary. -/
def stmtBits (pos : Nat) : Stmt → Option (List Bool)
  | .mode m => some (bitsOf wMode m.toNat)
  | .field w v => if v < 2 ^ w then some (bitsOf w v) else none
  | .align => some (List.replicate ((8 - pos % 8) % 8) false)
  | .bytes bs => if pos % 8 = 0 then some (streamBits bs) else none

/-- The stream so far with the bits of base statements after it. -/
def stmtsBits (acc : List Bool) : List Stmt → Option (List Bool)
  | [] => some acc
  | st :: sts =>
    match stmtBits acc.length st with
    | some bs => stmtsBits (acc ++ bs) sts
    | none => none

/-- The stream so far with the bits of a line after it; a pseudo-instruction whose string does not fit is refused. -/
def lineBits (acc : List Bool) : AsmLine → Option (List Bool)
  | .base st => stmtsBits acc [st]
  | .pseudo p => if pseudoWf p then stmtsBits acc (expand acc.length p) else none

/-- The stream of a program. -/
def linesBits (acc : List Bool) : List AsmLine → Option (List Bool)
  | [] => some acc
  | l :: ls =>
    match lineBits acc l with
    | some acc' => linesBits acc' ls
    | none => none

/-- The stream cut into bytes from bit 0, most significant bit first, a final partial byte filled with zero bits (R82). -/
def packBits : List Bool → List Byte
  | [] => []
  | b0 :: b1 :: b2 :: b3 :: b4 :: b5 :: b6 :: b7 :: bs =>
    BitVec.ofNat 8 (bitsVal [b0, b1, b2, b3, b4, b5, b6, b7]) :: packBits bs
  | b :: bs => [BitVec.ofNat 8 (bitsVal (b :: bs) * 2 ^ (7 - bs.length))]

/-- The codeword bytes of a program, or nothing where the assembler refuses it. -/
def assemble (ls : List AsmLine) : Option (List Byte) := (linesBits [] ls).map packBits

/-- The bytes a well-formed pseudo-instruction's segment decodes to: its own string; nothing for Kanji, the terminator and
padding (R83, R102, R150). -/
def payload : Pseudo → List Byte
  | .num ds => ds
  | .alnum s => s
  | .byte bs => bs
  | .term | .kanjiZeros _ | .kanji _ | .padCw _ => []

/-- The pseudo-instructions that are whole supported segments: not the terminator, not padding. -/
def isSegment : Pseudo → Bool
  | .num _ | .alnum _ | .byte _ | .kanjiZeros _ | .kanji _ => true
  | .term | .padCw _ => false

end Sys2Proof.Machine
end

