-- ==== Sys2Proof/Machine/Schedule.lean ====
section
/-! DEFINITION. Endless schedules of edges and their fairness (70_reset_and_hazards.md R209, R210). State holds the inputs of
finitely many edges; a schedule gives those of every edge, and its run hands them to the machine edge by edge. -/

namespace Sys2Proof.Machine

/-- The inputs of every rising edge, the first at 0: any interleaving of the host and the decoder (R160, R209). -/
abbrev Schedule := Nat → Edge

/-- `k` steps of the machine from `s`, step `j` with the inputs `σ j`. -/
def Schedule.run (σ : Schedule) : Nat → State → Result
  | 0, s => .next s
  | k + 1, s =>
    match Schedule.run σ k s with
    | .next t => step { t with inputs := [σ k] }
    | .fault f => .fault f
    | .refused r => .refused r

/-- Weak fairness of an action in the run of a schedule from `s`: it never stays enabled for ever without being taken, that
is, from every edge on there is one where it is not enabled or is taken. -/
def Schedule.WeaklyFair (σ : Schedule) (s : State) (enabled : State → Bool) (taken : Edge → Bool) : Prop :=
  ∀ k, ∃ j, k ≤ j ∧ ∀ t, σ.run j s = .next t → enabled t = true → taken (σ j) = true

/-- The edge takes an enabled decoder step (R160; with `rst = 1` there is none, R200). -/
def Edge.takesDecoderStep (e : Edge) : Bool := e.decoderGo && !e.ports.rst

/-- Weak fairness of the decoder: "an enabled decoder step is eventually taken" (R210). -/
def Schedule.DecoderFair (σ : Schedule) (s : State) : Prop :=
  σ.WeaklyFair s State.decoderEnabled Edge.takesDecoderStep

/-- Weak fairness of the host's output side: "while `out_valid = 1`, `out_ready` is eventually high" (R210). -/
def Schedule.HostFair (σ : Schedule) (s : State) : Prop :=
  σ.WeaklyFair s State.outValid fun e => e.ports.outReady

/-- In the run of a schedule from `s`, no edge of the decode in progress resets it (R201) or faults (R183). -/
def Schedule.LetsDecodeRun (σ : Schedule) (s : State) : Prop :=
  ∀ k u, σ.run k s = .next u → u.busy = true → (σ k).ports.rst = false ∧ ∃ t, σ.run (k + 1) s = .next t

end Sys2Proof.Machine
end

