-- ==== Sys2Proof/Machine/Reference.lean ====
section
/-! DEFINITION. The reference function `decode(CW, L)` (40_segment_loop.md R90) on a buffer given as its `L` bytes: total, with
no machine state. The FSM refines it (R91). -/

namespace Sys2Proof.Machine

/-- `Bit(i)` of a buffer (R57). -/
def refBit (buf : List Byte) (i : Nat) : Nat := (buf.getD (i / 8) 0).toNat / 2 ^ (7 - i % 8) % 2

/-- The loop of ReadBits (R55). -/
def refBits (buf : List Byte) (v i : Nat) : Nat → Nat
  | 0 => v
  | k + 1 => refBits buf (2 * v + refBit buf i) (i + 1) k

/-- `8*L - cur` (R54). -/
def refAvail (buf : List Byte) (cur : Nat) : Nat := 8 * buf.length - cur

/-- `ReadBits(n)` of the reference function: the value and the new cursor (R55, R56). -/
def refRead (buf : List Byte) (cur n : Nat) : Nat × Nat :=
  (refBits buf 0 cur (min n (refAvail buf cur)), cur + min n (refAvail buf cur))

/-- The Numeric body of count `c` at `cur`: its bytes and the cursor after it. -/
def refNum (buf : List Byte) : Nat → Nat → List Byte × Nat
  | 0, cur => ([], cur)
  | 1, cur => ([digit (refRead buf cur wNum1).1], (refRead buf cur wNum1).2)
  | 2, cur => (pairBytes (refRead buf cur wNum2).1, (refRead buf cur wNum2).2)
  | c + 3, cur =>
    (tripleBytes (refRead buf cur wNum3).1 ++ (refNum buf c (refRead buf cur wNum3).2).1,
      (refNum buf c (refRead buf cur wNum3).2).2)

/-- The Alphanumeric body of count `c` at `cur`. -/
def refAlnum (buf : List Byte) : Nat → Nat → List Byte × Nat
  | 0, cur => ([], cur)
  | 1, cur => (antBytes (refRead buf cur wAn1).1, (refRead buf cur wAn1).2)
  | c + 2, cur =>
    (antPairBytes (refRead buf cur wAn2).1 ++ (refAlnum buf c (refRead buf cur wAn2).2).1,
      (refAlnum buf c (refRead buf cur wAn2).2).2)

/-- The Byte body of count `c` at `cur`. -/
def refByte (buf : List Byte) : Nat → Nat → List Byte × Nat
  | 0, cur => ([], cur)
  | c + 1, cur =>
    if refAvail buf cur < wByte then ([], cur)
    else
      (BitVec.ofNat 8 (refRead buf cur wByte).1 :: (refByte buf c (refRead buf cur wByte).2).1,
        (refByte buf c (refRead buf cur wByte).2).2)

/-- The Kanji body: the skip, clamped at the end of the buffer. -/
def refKanji (buf : List Byte) (c cur : Nat) : List Byte × Nat := ([], min (cur + wKanji * c) (8 * buf.length))

/-- What follows a segment body: its bytes before those of the rest. -/
def refThen (body : List Byte × Nat) (rest : Nat → List Byte × HaltReason) : List Byte × HaltReason :=
  (body.1 ++ (rest body.2).1, (rest body.2).2)

/-- The count and body of a supported mode, and `rest` from the cursor after them; the halts of the other modes. -/
def refSegment (buf : List Byte) (m cur : Nat) (rest : Nat → List Byte × HaltReason) : List Byte × HaltReason :=
  match m with
  | 0b0000 => ([], .term)
  | 0b0001 => refThen (refNum buf (refRead buf cur wCcNum).1 (refRead buf cur wCcNum).2) rest
  | 0b0010 => refThen (refAlnum buf (refRead buf cur wCcAlnum).1 (refRead buf cur wCcAlnum).2) rest
  | 0b0100 => refThen (refByte buf (refRead buf cur wCcByte).1 (refRead buf cur wCcByte).2) rest
  | 0b1000 => refThen (refKanji buf (refRead buf cur wCcKanji).1 (refRead buf cur wCcKanji).2) rest
  | _ => ([], .unsup)

/-- The loop of R90 from `cur`, for at most `fuel` turns. Every turn but the last uses up at least 4 bits, so
`2*L + 1` turns are enough (R101); out of fuel the reason is NONE, which no decode gives. -/
def refLoop (buf : List Byte) : Nat → Nat → List Byte × HaltReason
  | 0, _ => ([], .none)
  | fuel + 1, cur =>
    if refAvail buf cur < wMode then ([], .exhaust)
    else refSegment buf (refRead buf cur wMode).1 (refRead buf cur wMode).2 (refLoop buf fuel)

/-- `decode(CW, L)`: the output bytes and the halt reason (R90). -/
def refDecode (buf : List Byte) : List Byte × HaltReason := refLoop buf (2 * buf.length + 1) 0

/-! What a decode in progress still owes. -/

/-- The rest of the decode of `buf` from a segment boundary at `cur`. -/
def refFrom (buf : List Byte) (cur : Nat) : List Byte × HaltReason := refLoop buf (2 * buf.length + 1) cur

/-- The bytes that the decode of `buf` still emits from state `s` on, by R90, and the reason it halts with. -/
def State.owes (s : State) (buf : List Byte) : List Byte × HaltReason :=
  match s.phase with
  | .idle | .done => ([], s.hr)
  | .hdr => refFrom buf s.cur
  | .cnt => refSegment buf s.mode.toNat s.cur (refFrom buf)
  | .num => refThen (refNum buf s.rem.toNat s.cur) (refFrom buf)
  | .alnum => refThen (refAlnum buf s.rem.toNat s.cur) (refFrom buf)
  | .byte => refThen (refByte buf s.rem.toNat s.cur) (refFrom buf)
  | .kanji => refThen (refKanji buf s.rem.toNat s.cur) (refFrom buf)

end Sys2Proof.Machine
end

