-- ==== Sys2Proof/Safety.lean ====
section
/-! DEFINITION. What claims about runs rest on: the invariant of the state (10_state.md R21 to R27, 20_memory.md R61), which
bytes of the buffer are loaded, and which edges keep a decode going. -/

namespace Sys2Proof.Machine

/-- Every address of the RAM's list is one of the buffer's (R29). -/
def Memory.below (m : Memory) (depth : Nat) : Bool := m.all fun c => decide (c.1 < depth)

/-- The mode indicators R24 allows in `mode`. -/
def modeLegal (m : Nibble) : Bool := m == 0b0000 || m == 0b0001 || m == 0b0010 || m == 0b0100 || m == 0b1000

/-- In the phases of a segment, `mode` is that segment's and `rem` is no more than its count field holds (R24, R25); outside
the bodies `pq` is empty (R26, R92); `hr` is NONE until the halt (R27). -/
def phaseOk (s : State) : Bool :=
  match s.phase with
  | .idle => s.pq.isEmpty && decide (s.hr = .none)
  | .hdr => s.pq.isEmpty && decide (s.hr = .none)
  | .cnt => s.pq.isEmpty && decide (s.hr = .none) && decide (s.mode ≠ 0b0000)
  | .num => decide (s.hr = .none) && decide (s.mode = 0b0001)
  | .alnum => decide (s.hr = .none) && decide (s.mode = 0b0010) && decide (s.rem.toNat < 2 ^ wCcAlnum)
  | .byte => decide (s.hr = .none) && decide (s.mode = 0b0100) && decide (s.rem.toNat < 2 ^ wCcByte)
  | .kanji => s.pq.isEmpty && decide (s.hr = .none) && decide (s.mode = 0b1000) && decide (s.rem.toNat < 2 ^ wCcKanji)
  | .done => s.pq.isEmpty && decide (s.hr ≠ .none)

/-- The invariant of the machine: the buffer holds the decode (R12, R22), the cursor is inside it (R21), the queue holds at
most 3 bytes (R26, R61), the RAM is in canonical form and inside its address space (R29), `mode` is one R24 allows, and the
phase's own conditions hold. -/
structure State.Inv (s : State) : Prop where
  depth_pos : 1 ≤ s.cwDepth
  len_le : s.L ≤ s.cwDepth
  cur_le : s.cur ≤ 8 * s.L
  pq_le : s.pq.length ≤ 3
  cw_wf : Memory.wf s.cw = true
  cw_below : Memory.below s.cw s.cwDepth = true
  mode_legal : modeLegal s.mode = true
  phase_ok : phaseOk s = true

/-- The invariant as a check. -/
def State.invCheck (s : State) : Bool :=
  decide (1 ≤ s.cwDepth) && decide (s.L ≤ s.cwDepth) && decide (s.cur ≤ 8 * s.L) && decide (s.pq.length ≤ 3)
    && Memory.wf s.cw && Memory.below s.cw s.cwDepth && modeLegal s.mode && phaseOk s

/-- The codeword buffer of the decode is loaded with these bytes: `CW[0..L-1]` (R18, R51). -/
abbrev State.Holds (s : State) (buf : List Byte) : Prop :=
  s.L = buf.length ∧ ∀ a, a < buf.length → Memory.read s.cw a = buf[a]?

/-- Every byte that holds a bit of the next `min(n, Avail())` is loaded (R66). -/
abbrev State.FieldLoaded (s : State) (n : Nat) : Prop :=
  ∀ j, j < min n s.avail → (Memory.read s.cw ((s.cur + j) / 8)).isSome = true

/-- Every byte of the decode's buffer is loaded (R66, R104). -/
abbrev State.Loaded (s : State) : Prop := ∀ a, a < s.L → (Memory.read s.cw a).isSome = true

/-- The bytes of the decode's buffer, a byte that is not loaded as 0. -/
def State.buffer (s : State) : List Byte := (List.range s.L).map fun a => (Memory.read s.cw a).getD 0

/-- The value that ReadBits(n) has at `s` by the reference function's bits (R55, R56, R57). -/
def State.field (s : State) (n : Nat) : Nat := (refRead s.buffer s.cur n).1

/-- The width of the count field of the mode in `mode` (R95). -/
def State.countWidth (s : State) : Nat :=
  if s.mode = 0b0001 then wCcNum
  else if s.mode = 0b0010 then wCcAlnum
  else if s.mode = 0b0100 then wCcByte
  else if s.mode = 0b1000 then wCcKanji
  else 0

/-- The width of the field that an enabled decoder step reads in the state's phase, 0 where it reads none (R93, R95, R111,
R127, R141, R151). -/
def State.readWidth (s : State) : Nat :=
  match s.phase with
  | .hdr => if s.avail < wMode then 0 else wMode
  | .cnt => s.countWidth
  | .num => if s.rem.toNat = 0 then 0 else if 3 ≤ s.rem.toNat then wNum3 else if s.rem.toNat = 2 then wNum2 else wNum1
  | .alnum => if s.rem.toNat = 0 then 0 else if 2 ≤ s.rem.toNat then wAn2 else wAn1
  | .byte => if s.rem.toNat = 0 then 0 else if s.avail < wByte then 0 else wByte
  | .kanji | .idle | .done => 0

/-- An edge at which the decoder takes its step if it has one and the host takes a byte if there is one. A schedule with enough
of these is one of those R210 speaks of; the fairness of R210 itself, whose two sides need not meet at an edge, is
`Schedule.DecoderFair` and `Schedule.HostFair`. -/
def Edge.serving (e : Edge) : Bool := e.decoderGo && e.ports.outReady

end Sys2Proof.Machine

namespace Sys2Proof

/-- The eleven unsupported modes (R72, R98). -/
def Instr.isUnsup : Instr → Bool
  | .unsup0011 | .unsup0101 | .unsup0110 | .unsup0111 => true
  | .unsup1001 | .unsup1010 | .unsup1011 | .unsup1100 | .unsup1101 | .unsup1110 | .unsup1111 => true
  | .term | .num | .alnum | .byte | .kanji | .load _ _ | .start _ | .pop => false

/-- The four modes with a count and a body (R73 to R76). -/
def Instr.isCounted : Instr → Bool
  | .num | .alnum | .byte | .kanji => true
  | .term | .unsup0011 | .unsup0101 | .unsup0110 | .unsup0111 => false
  | .unsup1001 | .unsup1010 | .unsup1011 | .unsup1100 | .unsup1101 | .unsup1110 | .unsup1111 => false
  | .load _ _ | .start _ | .pop => false

/-- The segments that are their mode indicator alone: the terminator and the unsupported modes (R77, R78). -/
def Instr.isHalting (i : Instr) : Bool := i.isUnsup || i == .term

/-- The sixteen segment kinds (R72). -/
def Instr.isSegment (i : Instr) : Bool := i.isHalting || i.isCounted

end Sys2Proof
end

