-- ==== Sys2Proof/Certificates/Slice0/Obligations.lean ====
section
/-! DEFINITION. The statements about the model, for the provers: each a Prop, none proved here. -/

open Sys2Proof Sys2Proof.Machine

/-! ## Reset and the invariant -/

/-- R38, R202: every register of the spec at its reset value, no codeword loaded, and the ports as R38 lists them. -/
def Obligations.ResetStateValues : Prop :=
  State.reset.phase = .idle ∧ State.reset.L = 0 ∧ State.reset.cur = 0 ∧ State.reset.mode = 0b0000 ∧
    State.reset.rem = 0 ∧ State.reset.pq = [] ∧ State.reset.hr = .none ∧
    (∀ a, Memory.read State.reset.cw a = none) ∧
    State.reset.outValid = false ∧ State.reset.busy = false ∧ State.reset.done = false ∧
    State.reset.haltReason = 0b00 ∧ ∀ b, State.reset.outDataMayBe b = true

/-- The reset state of every capacity of at least one byte meets the invariant, and so does State.reset (whose capacity is
the model's choice, log entry 1). -/
def Obligations.ResetMeetsInvariant : Prop :=
  State.reset.Inv ∧ ∀ depth, 1 ≤ depth → (State.resetWith depth).Inv

/-- R12, R21, R22, R24 to R27, R61: every step from a state that meets the invariant leads to one that does. -/
def Obligations.StepKeepsInvariant : Prop :=
  ∀ s t : State, s.Inv → step s = .next t → t.Inv

/-- R200: an edge with rst = 1 leaves every register at its reset value, the RAM as it was, whatever the other inputs are;
and no other edge ends a decode but by its halt. That the host's record of bytes taken, the model's own field, stays at a reset
edge as well is no rule's but the model's choice (log entries 2 and 10). -/
def Obligations.ResetEdgeResetsAll : Prop :=
  (∀ s : State, s.nextEdge.ports.rst = true →
    step s = .next
      { s with
        phase := .idle, L := 0, cur := 0, mode := 0b0000, rem := 0, pq := [], hr := .none
        inputs := s.inputs.tail }) ∧
    ∀ s t : State, s.busy = true → s.nextEdge.ports.rst = false → step s = .next t →
      t.busy = true ∨ (t.phase = .done ∧ t.hr ≠ .none)

/-! ## Ports and status -/

/-- R36: the status ports as functions of the state, and what follows of them in every state that meets the invariant. -/
def Obligations.StatusPortsOfState : Prop :=
  (∀ s : State,
    (s.busy = true ↔ s.phase = .hdr ∨ s.phase = .cnt ∨ s.phase = .num ∨ s.phase = .alnum ∨ s.phase = .byte ∨
      s.phase = .kanji) ∧
    (s.done = true ↔ s.phase = .done ∧ s.pq.length = 0) ∧
    s.haltReason = s.hr.code ∧
    ¬(s.busy = true ∧ s.done = true) ∧
    (s.phase = .idle → s.busy = false ∧ s.done = false)) ∧
  ∀ s : State, s.Inv → s.pq ≠ [] → s.busy = true ∧ s.done = false

/-- R37: out_valid, and out_data the front of the queue; with out_valid low any byte is allowed. -/
def Obligations.OutputPortsOfState : Prop :=
  ∀ s : State,
    (s.outValid = true ↔ 0 < s.pq.length) ∧
    (∀ b rest, s.pq = b :: rest → ∀ x, s.outDataMayBe x = true ↔ x = b) ∧
    (s.outValid = false → ∀ x, s.outDataMayBe x = true)

/-- R27: the codes of the halt reasons, and the only events that change `hr`: reset or START to NONE, a mode indicator 0000
to TERM, an unsupported one to UNSUP, fewer than 4 unread bits at a segment boundary to EXHAUST. -/
def Obligations.HaltReasonWriters : Prop :=
  HaltReason.code .none = 0b00 ∧ HaltReason.code .term = 0b01 ∧ HaltReason.code .unsup = 0b10 ∧
    HaltReason.code .exhaust = 0b11 ∧
  ∀ s t : State, s.Inv → step s = .next t → t.hr ≠ s.hr →
    (t.hr = .none ∧ (s.nextEdge.ports.rst = true ∨ s.nextEdge.ports.start = true)) ∨
    (t.hr = .term ∧ s.phase = .hdr ∧ 4 ≤ s.avail ∧ s.field 4 = 0b0000) ∨
    (t.hr = .unsup ∧ s.phase = .hdr ∧ 4 ≤ s.avail ∧ s.field 4 ≠ 0b0000 ∧ s.field 4 ≠ 0b0001 ∧ s.field 4 ≠ 0b0010 ∧
      s.field 4 ≠ 0b0100 ∧ s.field 4 ≠ 0b1000) ∨
    (t.hr = .exhaust ∧ s.phase = .hdr ∧ s.avail < 4)

/-- R167: with a byte waiting and out_ready low, out_valid and out_data stay; and when the decoder halts the queue is
empty. -/
def Obligations.OutputStability : Prop :=
  (∀ s t : State, s.Inv → s.outValid = true → s.nextEdge.ports.outReady = false → s.nextEdge.ports.rst = false →
    step s = .next t → t.outValid = true ∧ t.pq = s.pq ∧ ∀ b, t.outDataMayBe b = s.outDataMayBe b) ∧
  ∀ s : State, s.Inv → s.phase = .done → s.pq = [] ∧ s.done = true

/-- R12, R13: under the invariant the length, the cursor, a RAM address and the Kanji skip's sum fit the widths the spec gives
them, so that none wraps. -/
def Obligations.WidthsNeverWrap : Prop :=
  ∀ s : State, s.Inv →
    s.L < 2 ^ Config.lenW s.cwDepth ∧
    s.cur < 2 ^ Config.curW s.cwDepth ∧
    (∀ a, a < s.cwDepth → a < 2 ^ Config.addrW s.cwDepth) ∧
    (s.phase = .kanji → s.cur + 13 * s.rem.toNat < 2 ^ Config.kanjiAdderW s.cwDepth)

/-! ## The codeword RAM and the bit-read primitive -/

/-- R55, R57: on loaded bytes ReadBits(n) answers the next min(n, Avail()) bits, the first the most significant, bit `i` of the
stream being bit `7 - (i mod 8)` of `CW[i / 8]`, and moves the cursor past them. -/
def Obligations.ReadBitsValue : Prop :=
  ∀ (n : Nat) (s : State), s.FieldLoaded n →
    ∃ v, readBits n s = .ok (v, { s with cur := s.cur + min n s.avail }) ∧
      v < 2 ^ min n s.avail ∧
      ∀ j, j < min n s.avail →
        ∃ b : Byte, Memory.read s.cw ((s.cur + j) / 8) = some b ∧
          v.testBit (min n s.avail - 1 - j) = b.getLsbD (7 - (s.cur + j) % 8)

/-- R56: a short read answers the bits that remain as a number of that many bits, right-aligned, and leaves the cursor at the
end of the buffer; with none left it answers 0 and leaves the cursor where it was. -/
def Obligations.ShortReadRightAligned : Prop :=
  ∀ (n : Nat) (s : State), s.cur ≤ 8 * s.L → s.avail < n → s.FieldLoaded n →
    (∃ v, readBits n s = .ok (v, { s with cur := 8 * s.L }) ∧ v < 2 ^ s.avail ∧
      ∀ j, j < s.avail →
        ∃ b : Byte, Memory.read s.cw ((s.cur + j) / 8) = some b ∧
          v.testBit (s.avail - 1 - j) = b.getLsbD (7 - (s.cur + j) % 8)) ∧
    (s.avail = 0 → readBits n s = .ok (0, s))

/-- R66, R183: an enabled decoder's step faults exactly when a byte it reads has never been loaded, with UNINIT_READ of the
first such byte, and otherwise answers a next state; on a buffer that is all loaded it never faults. -/
def Obligations.UninitReadExactly : Prop :=
  ∀ s : State, s.Inv → s.decoderEnabled = true → s.nextEdge.decoderGo = true → s.nextEdge.ports.rst = false →
    (s.Loaded → ∃ t, step s = .next t) ∧
    (s.FieldLoaded s.readWidth → ∃ t, step s = .next t) ∧
    (¬ s.FieldLoaded s.readWidth →
      ∃ j, j < min s.readWidth s.avail ∧ Memory.read s.cw ((s.cur + j) / 8) = none ∧
        (∀ l, l < j → (Memory.read s.cw ((s.cur + l) / 8)).isSome = true) ∧
        step s = .fault (.uninitRead ((s.cur + j) / 8)))

/-- R183, R180: under the invariant no step ends in any stop but UNINIT_READ of a byte below L that was never loaded. -/
def Obligations.NoOtherStop : Prop :=
  ∀ s : State, s.Inv →
    (∀ f, step s = .fault f → ∃ a, f = .uninitRead a ∧ a < s.L ∧ Memory.read s.cw a = none ∧ s.busy = true) ∧
    ∀ r, step s ≠ .refused r

/-- R104, R180: with the buffer loaded every edge leads to a next state, and a decode's buffer stays loaded while it runs. -/
def Obligations.LoadedDecodeNeverStops : Prop :=
  ∀ s : State, s.Inv → s.Loaded → ∃ t, step s = .next t ∧ t.Inv ∧ (s.busy = true → t.Loaded)

/-- R53: while busy no edge changes a byte of CW, LOAD strobe or not; and no segment instruction ever does. -/
def Obligations.BufferImmutableWhileBusy : Prop :=
  (∀ s t : State, s.busy = true → step s = .next t → ∀ a, Memory.read t.cw a = Memory.read s.cw a) ∧
  ∀ (i : Instr) (s t : State), i.isSegment = true → exec i s = .next t →
    ∀ a, Memory.read t.cw a = Memory.read s.cw a

/-- R59: bytes of CW at and above L do not affect a decode: two machines that differ only there take the same step. -/
def Obligations.BytesAboveLengthIrrelevant : Prop :=
  ∀ (s : State) (m : Memory), s.Inv → s.busy = true →
    (∀ a, a < s.L → Memory.read m a = Memory.read s.cw a) →
    (∀ t, step s = .next t → step { s with cw := m } = .next { t with cw := m }) ∧
    ∀ f, step s = .fault f → step { s with cw := m } = .fault f

/-- R21: the cursor is 0 at reset, stays between 0 and 8*L and inside its width, and no step makes it smaller but reset and a
START that takes effect, which set it to 0. -/
def Obligations.CursorNeverRewinds : Prop :=
  State.reset.cur = 0 ∧
  ∀ s t : State, s.Inv → step s = .next t →
    t.cur ≤ 8 * t.L ∧ t.cur < 2 ^ Config.curW t.cwDepth ∧
    (t.cur < s.cur →
      t.cur = 0 ∧ (s.nextEdge.ports.rst = true ∨ (s.nextEdge.ports.start = true ∧ s.busy = false)))

/-- Which events write `L`, `mode`, a byte of CW and the written marks, and the capacity (R22, R24, R29, R30, R12), from every
state that meets the invariant. -/
def Obligations.RegisterWriters : Prop :=
  ∀ s t : State, s.Inv → step s = .next t →
    t.cwDepth = s.cwDepth ∧
    (t.L ≠ s.L → s.nextEdge.ports.rst = true ∨
      (s.nextEdge.ports.start = true ∧ s.busy = false ∧ s.nextEdge.ports.startLen ≤ s.cwDepth ∧
        t.L = s.nextEdge.ports.startLen)) ∧
    (t.mode ≠ s.mode → s.nextEdge.ports.rst = true ∨ (s.nextEdge.ports.start = true ∧ s.busy = false) ∨
      (s.phase = .hdr ∧ t.mode.toNat = s.field 4 ∧
        (t.mode = 0b0001 ∨ t.mode = 0b0010 ∨ t.mode = 0b0100 ∨ t.mode = 0b1000))) ∧
    ∀ a, Memory.read t.cw a ≠ Memory.read s.cw a →
      s.nextEdge.ports.rst = false ∧ s.nextEdge.ports.cwWe = true ∧ s.busy = false ∧ a = s.nextEdge.ports.cwAddr ∧
        a < s.cwDepth ∧ Memory.read t.cw a = some s.nextEdge.ports.cwWdata

/-! ## Decoding and the step -/

/-- A step runs the instruction its bits decode to: in HDR the four bits at the cursor, in CNT the latched mode, in a body its
own segment; whatever the strobes are, the step is exec of it with the edge's inputs used up. -/
def Obligations.StepRunsDecodedSegment : Prop :=
  ∀ s : State, s.decoderEnabled = true → s.nextEdge.decoderGo = true → s.nextEdge.ports.rst = false →
    (s.phase = .hdr → 4 ≤ s.avail → s.FieldLoaded 4 →
      step s = exec (decodeMode (BitVec.ofNat 4 (s.field 4))) s.dropEdge) ∧
    (s.phase = .cnt → step s = exec (decodeMode s.mode) s.dropEdge) ∧
    (s.phase = .num → step s = exec .num s.dropEdge) ∧
    (s.phase = .alnum → step s = exec .alnum s.dropEdge) ∧
    (s.phase = .byte → step s = exec .byte s.dropEdge) ∧
    (s.phase = .kanji → step s = exec .kanji s.dropEdge)

/-- A step with no decoder step to take runs the host commands that the edge's strobes decode to, in the order LOAD, START,
POP, with the edge's inputs used up; one strobe is one command. -/
def Obligations.StepRunsDecodedCommands : Prop :=
  (∀ s : State, s.decoderEnabled = false → s.nextEdge.ports.rst = false →
    step s = execAll (decodePorts s.nextEdge.ports) s.dropEdge) ∧
  ∀ (s : State) (i : Instr), s.decoderEnabled = false → encode i = .ports s.nextEdge.ports →
    step s = exec i s.dropEdge

/-- A table word placed for the next step is the instruction the next step runs, from every state with a buffer. -/
def Obligations.PlacedWordRuns : Prop :=
  ∀ (s : State) (m : Nibble), 1 ≤ s.cwDepth →
    decodeTableWord 4 m.toNat = some (decodeMode m) ∧
    step (s.withFetchWord 4 m.toNat) = exec (decodeMode m) (s.withFetchWord 4 m.toNat).dropEdge

/-- The codes of R72 and of the host commands decode to their instructions, on words written out from the spec. -/
def Obligations.WordsDecodeAsListed : Prop :=
  decodeBytes [0x00] = .ok .term ∧ decodeBytes [0x10, 0x24] = .ok .num ∧ decodeBytes [0x20, 0x19] = .ok .alnum ∧
    decodeBytes [0x40, 0x54] = .ok .byte ∧ decodeBytes [0x80, 0x10] = .ok .kanji ∧
    decodeBytes [0x30] = .ok .unsup0011 ∧ decodeBytes [0xF0] = .ok .unsup1111 ∧
    decodeBits [false, false, true] = .error (.noModeIndicator 3) ∧
    decodePorts { PortIn.quiet with cwWe := true, cwAddr := 5, cwWdata := 0x40 } = [.load 5 0x40] ∧
    decodePorts { PortIn.quiet with start := true, startLen := 7 } = [.start 7] ∧
    decodePorts { PortIn.quiet with outReady := true } = [.pop] ∧
    decodePorts { PortIn.quiet with rst := true, cwWe := true, start := true, outReady := true } = []

/-- Any well-formed port vector decodes to well-formed commands, and every vector without reset is the union of the strobes
its commands encode to. -/
def Obligations.PortVectorsDecodeWhole : Prop :=
  ∀ p : PortIn,
    (∀ depth, p.wf depth = true → ∀ i ∈ decodePorts p, i.wf depth = true) ∧
    (p.rst = false →
      (p.cwWe = true ↔ Instr.load p.cwAddr p.cwWdata ∈ decodePorts p) ∧
      (p.start = true ↔ Instr.start p.startLen ∈ decodePorts p) ∧
      (p.outReady = true ↔ Instr.pop ∈ decodePorts p)) ∧
    ∀ i ∈ decodePorts p, i.isSegment = false

/-! ## The segment loop -/

/-- R93, R94: at the loop head, with a mode indicator left, each supported segment latches its mode, moves the cursor by exactly
4 and has its count read next; so does the decoder's step where the four bits at the cursor are that mode. -/
def Obligations.HeaderLatchesMode : Prop :=
  ∀ s : State, s.phase = .hdr → s.pq = [] → 4 ≤ s.avail →
    exec .num s = .next { s with cur := s.cur + 4, mode := 0b0001, phase := .cnt } ∧
    exec .alnum s = .next { s with cur := s.cur + 4, mode := 0b0010, phase := .cnt } ∧
    exec .byte s = .next { s with cur := s.cur + 4, mode := 0b0100, phase := .cnt } ∧
    exec .kanji s = .next { s with cur := s.cur + 4, mode := 0b1000, phase := .cnt } ∧
    (s.nextEdge.decoderGo = true → s.nextEdge.ports.rst = false → s.FieldLoaded 4 →
      ∀ m : Nibble, (m = 0b0001 ∨ m = 0b0010 ∨ m = 0b0100 ∨ m = 0b1000) → s.field 4 = m.toNat →
        step s = .next { s with cur := s.cur + 4, mode := m, phase := .cnt, inputs := s.inputs.tail })

/-- R96: TERM at the loop head halts with TERM, past its 4 bits and reading nothing more; `busy` falls and `done` rises; so
does the decoder's step where the four bits at the cursor are 0000. -/
def Obligations.TermHalts : Prop :=
  ∀ s : State, s.phase = .hdr → s.pq = [] → 4 ≤ s.avail →
    (∃ t, exec .term s = .next t ∧ t = { s with hr := .term, phase := .done, cur := s.cur + 4 } ∧
      t.busy = false ∧ t.done = true ∧ t.haltReason = 0b01) ∧
    (s.nextEdge.decoderGo = true → s.nextEdge.ports.rst = false → s.FieldLoaded 4 → s.field 4 = 0b0000 →
      step s = .next { s with hr := .term, phase := .done, cur := s.cur + 4, inputs := s.inputs.tail })

/-- R98: each of the eleven unsupported modes at the loop head halts with UNSUP, past its 4 bits and reading nothing more; so
does the decoder's step where the four bits at the cursor are one of them. -/
def Obligations.UnsupportedHalts : Prop :=
  ∀ s : State, s.phase = .hdr → s.pq = [] → 4 ≤ s.avail →
    (∀ i : Instr, i.isUnsup = true →
      ∃ t, exec i s = .next t ∧ t = { s with hr := .unsup, phase := .done, cur := s.cur + 4 } ∧
        t.busy = false ∧ t.done = true ∧ t.haltReason = 0b10) ∧
    (s.nextEdge.decoderGo = true → s.nextEdge.ports.rst = false → s.FieldLoaded 4 →
      (s.field 4 = 0b0011 ∨ s.field 4 = 0b0101 ∨ s.field 4 = 0b0110 ∨ s.field 4 = 0b0111 ∨ 0b1001 ≤ s.field 4) →
        step s = .next { s with hr := .unsup, phase := .done, cur := s.cur + 4, inputs := s.inputs.tail })

/-- R97: with fewer than 4 unread bits at the loop head the decoder's step halts with EXHAUST, the cursor unchanged and no bit
read (nothing needs to be loaded). The last clause, that exec of every segment instruction takes EXHAUST there too, is no
rule's but the model's own (log entry 8): R97 gives EXHAUST no encoding, and the step fetches no segment there. -/
def Obligations.ExhaustHalts : Prop :=
  ∀ s : State, s.phase = .hdr → s.pq = [] → s.avail < 4 →
    (s.nextEdge.decoderGo = true → s.nextEdge.ports.rst = false →
      ∃ t, step s = .next t ∧ t = { s with hr := .exhaust, phase := .done, inputs := s.inputs.tail } ∧
        t.busy = false ∧ t.done = true ∧ t.haltReason = 0b11) ∧
    ∀ i : Instr, i.isSegment = true → exec i s = .next { s with hr := .exhaust, phase := .done }

/-- R95: the CNT step reads the count field of the latched mode, short at the end of the buffer, into `rem`, and the segment's
body is next; it emits nothing. -/
def Obligations.CountStepReads : Prop :=
  ∀ s : State, s.phase = .cnt → s.pq = [] →
    (s.mode = 0b0001 → s.FieldLoaded 10 →
      exec .num s = .next
        { s with cur := s.cur + min 10 s.avail, rem := BitVec.ofNat 10 (s.field 10), phase := .num }) ∧
    (s.mode = 0b0010 → s.FieldLoaded 9 →
      exec .alnum s = .next
        { s with cur := s.cur + min 9 s.avail, rem := BitVec.ofNat 10 (s.field 9), phase := .alnum }) ∧
    (s.mode = 0b0100 → s.FieldLoaded 8 →
      exec .byte s = .next
        { s with cur := s.cur + min 8 s.avail, rem := BitVec.ofNat 10 (s.field 8), phase := .byte }) ∧
    (s.mode = 0b1000 → s.FieldLoaded 8 →
      exec .kanji s = .next
        { s with cur := s.cur + min 8 s.avail, rem := BitVec.ofNat 10 (s.field 8), phase := .kanji }) ∧
    ∀ n, n ≤ 10 → (BitVec.ofNat 10 (s.field n)).toNat = s.field n

/-- R92: when the decoder is enabled, and that without an enabled decoder there is no decoder step: the edge's decoder schedule
makes no difference. The middle clause, that exec of a segment instruction then answers the same state, is no rule's but the
model's own hold (log entry 8), which belongs to exec alone. -/
def Obligations.DecoderHolds : Prop :=
  (∀ s : State, s.decoderEnabled = true ↔
    (s.phase = .hdr ∨ s.phase = .cnt ∨ s.phase = .num ∨ s.phase = .alnum ∨ s.phase = .byte ∨ s.phase = .kanji) ∧
      s.pq.length = 0) ∧
  (∀ (i : Instr) (s : State), i.isSegment = true → s.decoderEnabled = false → exec i s = .next s) ∧
  ∀ (s : State) (e : Edge) (es : List Edge) (g : Bool), s.decoderEnabled = false →
    step { s with inputs := e :: es } = step { s with inputs := { e with decoderGo := g } :: es }

/-- R100: a halt writes `hr` and `phase` only, the queue being empty there, and only START or reset leave DONE. -/
def Obligations.HaltIsTerminal : Prop :=
  (∀ (s : State) (r : HaltReason), s.halt r = { s with hr := r, phase := .done }) ∧
  (∀ s t : State, s.Inv → step s = .next t → s.phase ≠ .done → t.phase = .done →
    t.mode = s.mode ∧ t.rem = s.rem ∧ t.L = s.L ∧ t.pq = [] ∧ s.phase = .hdr) ∧
  ∀ s t : State, step s = .next t → s.phase = .done → t.phase ≠ .done →
    s.nextEdge.ports.rst = true ∨
      (s.nextEdge.ports.start = true ∧ s.nextEdge.ports.startLen ≤ s.cwDepth ∧ t.phase = .hdr)

/-- R195: in IDLE and DONE, at an edge without a host command or reset, the block holds its state. -/
def Obligations.IdleAndDoneHold : Prop :=
  ∀ s : State, s.phase = .idle ∨ s.phase = .done → s.nextEdge.ports.rst = false → decodePorts s.nextEdge.ports = [] →
    step s = .next { s with inputs := s.inputs.tail }

/-! ## The segment bodies -/

/-- R111 (with R113 to R115): the NUM body step, form by form: its field, its digits `D` by the formula, its count. -/
def Obligations.NumericBodyStep : Prop :=
  ∀ s : State, s.phase = .num → s.pq = [] →
    (s.rem.toNat = 0 → exec .num s = .next { s with phase := .hdr }) ∧
    (3 ≤ s.rem.toNat → s.FieldLoaded 10 →
      exec .num s = .next
        { s with
          cur := s.cur + min 10 s.avail
          pq := [digit (s.field 10 / 100), digit (s.field 10 / 10 % 10),
            digit (s.field 10 % 10)]
          rem := BitVec.ofNat 10 (s.rem.toNat - 3) }) ∧
    (s.rem.toNat = 2 → s.FieldLoaded 7 →
      exec .num s = .next
        { s with
          cur := s.cur + min 7 s.avail
          pq := [digit (s.field 7 / 10), digit (s.field 7 % 10)]
          rem := 0 }) ∧
    (s.rem.toNat = 1 → s.FieldLoaded 4 →
      exec .num s = .next
        { s with
          cur := s.cur + min 4 s.avail
          pq := [digit (s.field 4)]
          rem := 0 })

/-- R112, R117: the byte of a digit, and the bytes of Numeric group values above the digit range. That '0' is 0x30 is general
knowledge by the spec's own mark (R112, "[from general knowledge, not in source]"). -/
def Obligations.NumericDigitBytes : Prop :=
  (∀ d, d ≤ 15 → (digit d).toNat = 0x30 + d) ∧
  (∀ v, 1000 ≤ v → v ≤ 1023 → tripleBytes v = [0x3A, digit (v / 10 % 10), digit (v % 10)]) ∧
    (∀ v, 100 ≤ v → v ≤ 109 → pairBytes v = [0x3A, digit (v % 10)]) ∧
    (∀ v, 110 ≤ v → v ≤ 119 → pairBytes v = [0x3B, digit (v % 10)]) ∧
    (∀ v, 120 ≤ v → v ≤ 127 → pairBytes v = [0x3C, digit (v % 10)]) ∧
    ∀ v, 10 ≤ v → v ≤ 15 → digit v = BitVec.ofNat 8 (0x3A + (v - 10))

/-- R118, R130: a Numeric body emits its whole count whatever the buffer holds, and past the end of the buffer a Numeric or
Alphanumeric body emits '0' for every character. -/
def Obligations.CutBodiesEmitWholeCount : Prop :=
  (∀ (buf : List Byte) (c cur : Nat), (refNum buf c cur).1.length = c) ∧
  (∀ (buf : List Byte) (c cur : Nat), 8 * buf.length ≤ cur →
    refNum buf c cur = (List.replicate c 0x30, cur) ∧ refAlnum buf c cur = (List.replicate c 0x30, cur))

/-- R127 (with R128): the ALNUM body step, form by form; `antBytes` is R129's range-checked lookup. -/
def Obligations.AlphanumericBodyStep : Prop :=
  ∀ s : State, s.phase = .alnum → s.pq = [] →
    (s.rem.toNat = 0 → exec .alnum s = .next { s with phase := .hdr }) ∧
    (2 ≤ s.rem.toNat → s.FieldLoaded 11 →
      exec .alnum s = .next
        { s with
          cur := s.cur + min 11 s.avail
          pq := (if s.field 11 / 45 < 45 then [ant.getD (s.field 11 / 45) 0] else []) ++
            (if s.field 11 % 45 < 45 then [ant.getD (s.field 11 % 45) 0] else [])
          rem := BitVec.ofNat 10 (s.rem.toNat - 2) }) ∧
    (s.rem.toNat = 1 → s.FieldLoaded 6 →
      exec .alnum s = .next
        { s with
          cur := s.cur + min 6 s.avail
          pq := if s.field 6 < 45 then [ant.getD (s.field 6) 0] else []
          rem := 0 })

/-- R129: how many bytes a pair and a single give, by their value. -/
def Obligations.AlphanumericRangeCheck : Prop :=
  (∀ v, v ≤ 2024 → antPairBytes v = [ant.getD (v / 45) 0, ant.getD (v % 45) 0]) ∧
    (∀ v, 2025 ≤ v → v ≤ 2047 → v / 45 = 45 ∧ v % 45 ≤ 22 ∧ antPairBytes v = [ant.getD (v % 45) 0]) ∧
    (∀ v, v ≤ 44 → antBytes v = [ant.getD v 0]) ∧
    ∀ v, 45 ≤ v → v ≤ 63 → antBytes v = []

/-- R125, R31: the table's 45 entries are the ASCII codes of the source's string, in order. The codes are general knowledge by
the spec's own mark (R125, "[from general knowledge, not in source]"). -/
def Obligations.AlphanumericTable : Prop :=
  ant.length = 45 ∧
    ant.map (fun b => b.toNat) = "0123456789ABCDEFGHIJKLMNOPQRSTUVWXYZ $%*+-./:".toList.map Char.toNat

/-- R141: the BYTE body step, form by form: the end of the count, the segment abandoned with fewer than 8 bits left, a byte
emitted as read. -/
def Obligations.ByteBodyStep : Prop :=
  ∀ s : State, s.phase = .byte → s.pq = [] →
    (s.rem.toNat = 0 → exec .byte s = .next { s with phase := .hdr }) ∧
    (0 < s.rem.toNat → s.avail < 8 → exec .byte s = .next { s with rem := 0, phase := .hdr }) ∧
    (0 < s.rem.toNat → 8 ≤ s.avail → s.FieldLoaded 8 →
      exec .byte s = .next
        { s with
          cur := s.cur + 8
          pq := [BitVec.ofNat 8 (s.field 8)]
          rem := BitVec.ofNat 10 (s.rem.toNat - 1) })

/-- R144: a Byte segment that starts on a 4-bit boundary and is cut short by the end of the buffer gives exactly the whole
bytes that are there: nothing is emitted after them. -/
def Obligations.CutByteSegmentTruncates : Prop :=
  ∀ (buf : List Byte) (s : Nat), s % 4 = 0 → s + 12 ≤ 8 * buf.length →
    (refRead buf s 4).1 = 0b0100 → (8 * buf.length - (s + 12)) / 8 < (refRead buf (s + 4) 8).1 →
    (refFrom buf s).1 =
      (List.range ((8 * buf.length - (s + 12)) / 8)).map
        fun j => BitVec.ofNat 8 (refRead buf (s + 12 + 8 * j) 8).1

/-- R151 (with R152): the KANJI step skips 13 bits a character, clamped at the end of the buffer, reads nothing (nothing needs
to be loaded), emits nothing, and returns to the loop head. -/
def Obligations.KanjiSkipStep : Prop :=
  ∀ s : State, s.phase = .kanji → s.pq = [] →
    exec .kanji s = .next { s with cur := min (s.cur + 13 * s.rem.toNat) (8 * s.L), rem := 0, phase := .hdr }

/-! ## The host commands -/

/-- R161: LOAD writes its byte at its address and nowhere else, and has no effect while busy or at an address outside the
buffer. -/
def Obligations.LoadWritesOneByte : Prop :=
  ∀ (a : Nat) (b : Byte) (s : State),
    (s.busy = false → a < s.cwDepth →
      ∃ t, exec (.load a b) s = .next t ∧ t = { s with cw := t.cw } ∧ Memory.read t.cw a = some b ∧
        ∀ a', a' ≠ a → Memory.read t.cw a' = Memory.read s.cw a') ∧
    (s.busy = true ∨ s.cwDepth ≤ a → exec (.load a b) s = .next s)

/-- R162: START begins a decode of `n` bytes with fresh registers, and has no effect while busy or when the buffer cannot hold
`n` bytes. What becomes of the host's record of bytes taken, the model's own field (log entry 2), is left open here. -/
def Obligations.StartBeginsDecode : Prop :=
  ∀ (n : Nat) (s : State),
    (s.busy = false → n ≤ s.cwDepth →
      ∃ t, exec (.start n) s = .next t ∧
        t = { s with
          L := n, cur := 0, mode := 0b0000, rem := 0, pq := [], hr := .none, phase := .hdr, taken := t.taken } ∧
        t.busy = true ∧ t.done = false ∧ t.haltReason = 0b00) ∧
    (s.busy = true ∨ s.cwDepth < n → exec (.start n) s = .next s)

/-- R166: POP hands the front of the queue, the byte on out_data, to the host and leaves the rest, so that out_valid falls when
the queue empties; with out_valid low it does nothing. "The host takes pq[0]" is written as the growth of the host's record
(log entry 2). -/
def Obligations.PopTakesFront : Prop :=
  ∀ s : State,
    (∀ b rest, s.pq = b :: rest →
      (∀ x, s.outDataMayBe x = true ↔ x = b) ∧
      ∃ t, exec .pop s = .next t ∧ t = { s with pq := rest, taken := s.taken ++ [b] } ∧
        (t.outValid = true ↔ rest ≠ [])) ∧
    (s.pq = [] → exec .pop s = .next s)

/-- R168: LOAD and START at one edge, not busy: the decode sees the byte written at that edge. -/
def Obligations.LoadThenStartAtOneEdge : Prop :=
  ∀ s : State, s.busy = false → s.nextEdge.ports.rst = false → s.nextEdge.ports.cwWe = true →
    s.nextEdge.ports.start = true → s.nextEdge.ports.cwAddr < s.cwDepth → s.nextEdge.ports.startLen ≤ s.cwDepth →
    ∃ t, step s = .next t ∧
      t = { s with
        phase := .hdr, L := s.nextEdge.ports.startLen, cur := 0, mode := 0b0000, rem := 0, pq := [], hr := .none
        taken := t.taken, inputs := s.inputs.tail, cw := t.cw } ∧
      Memory.read t.cw s.nextEdge.ports.cwAddr = some s.nextEdge.ports.cwWdata ∧
      ∀ a, a ≠ s.nextEdge.ports.cwAddr → Memory.read t.cw a = Memory.read s.cw a

/-- R163, R164: at an edge where `busy` is true the LOAD and START strobes make no difference, whatever their operands. -/
def Obligations.BusyIgnoresLoadAndStart : Prop :=
  ∀ (s : State) (e : Edge) (es : List Edge) (we st : Bool) (a n : Nat) (b : Byte), s.busy = true →
    step { s with inputs := { e with ports := { e.ports with
        cwWe := we, cwAddr := a, cwWdata := b, start := st, startLen := n } } :: es } =
      step { s with inputs := { e with ports := { e.ports with cwWe := false, start := false } } :: es }

/-- R186: a POP and a decoder step never share an edge, nor do a START that takes effect and a POP: in those states the
out_ready strobe makes no difference. -/
def Obligations.PopSharesNoEdge : Prop :=
  ∀ (s : State) (e : Edge) (es : List Edge) (r : Bool), s.Inv →
    (s.decoderEnabled = true ∨ (s.busy = false ∧ e.ports.start = true ∧ e.ports.startLen ≤ s.cwDepth)) →
    step { s with inputs := { e with ports := { e.ports with outReady := r } } :: es } =
      step { s with inputs := { e with ports := { e.ports with outReady := false } } :: es }

/-- R39: nothing of an earlier decode but CW reaches the next: START from two states that share only CW, the capacity and the
coming inputs gives one and the same state. The registers agree by R39; the host's record of bytes taken, the model's own
field, agrees because START empties it, which is the model's choice (log entry 2). -/
def Obligations.StartForgetsEarlierDecode : Prop :=
  ∀ (n : Nat) (s1 s2 : State), s1.busy = false → s2.busy = false → n ≤ s1.cwDepth → s1.cw = s2.cw →
    s1.cwDepth = s2.cwDepth → s1.inputs = s2.inputs → ∃ t, exec (.start n) s1 = .next t ∧ exec (.start n) s2 = .next t

/-! ## Frames -/

/-- What a segment instruction leaves unchanged: the length, the capacity, the host's record, the inputs and every byte of CW,
for all sixteen; `mode`, `rem` and the queue too for the terminator and the unsupported modes; for a counted segment `hr` but
at an exhausted loop head, `mode` but at the loop head, `rem` at the loop head, the queue but in a body, where bytes are added
behind; and the queue always for Kanji. That exec of a segment takes EXHAUST at an exhausted loop head and holds while no
decoder step is enabled is the model's own (log entry 8). -/
def Obligations.SegmentFrame : Prop :=
  ∀ (i : Instr) (s t : State), i.isSegment = true → exec i s = .next t →
    t.L = s.L ∧ t.cwDepth = s.cwDepth ∧ t.taken = s.taken ∧ t.inputs = s.inputs ∧
    (∀ a, Memory.read t.cw a = Memory.read s.cw a) ∧
    (i.isHalting = true → t.mode = s.mode ∧ t.rem = s.rem ∧ t.pq = s.pq) ∧
    (i.isCounted = true →
      (t.hr ≠ s.hr → s.phase = .hdr ∧ s.avail < 4 ∧ t.hr = .exhaust) ∧
      (t.mode ≠ s.mode → s.phase = .hdr) ∧
      (s.phase = .hdr → t.rem = s.rem ∧ t.pq = s.pq) ∧
      (s.phase = .cnt → t.pq = s.pq) ∧
      ∃ bs : List Byte, bs.length ≤ 3 ∧ t.pq = s.pq ++ bs) ∧
    (i = .kanji → t.pq = s.pq)

/-- What the host commands leave unchanged: LOAD everything but the byte at its address; START every byte of CW, the capacity
and the inputs; POP everything but the queue and the host's record (the model's own field, log entry 2). -/
def Obligations.HostCommandFrame : Prop :=
  (∀ (a : Nat) (b : Byte) (s t : State), exec (.load a b) s = .next t →
    t = { s with cw := t.cw } ∧ ∀ a', a' ≠ a → Memory.read t.cw a' = Memory.read s.cw a') ∧
  (∀ (n : Nat) (s t : State), exec (.start n) s = .next t →
    t.cwDepth = s.cwDepth ∧ t.inputs = s.inputs ∧ ∀ a, Memory.read t.cw a = Memory.read s.cw a) ∧
  ∀ s t : State, exec .pop s = .next t →
    t = { s with pq := t.pq, taken := t.taken } ∧ t.taken ++ t.pq = s.taken ++ s.pq ∧
      ∀ a, Memory.read t.cw a = Memory.read s.cw a

/-- R26, R61, R62: while a decode runs no output byte is lost, sent twice or reordered: the bytes taken and the bytes queued,
together, only grow at their end, by the bytes of a body step taken with the queue empty, at most 3. -/
def Obligations.OutputConserved : Prop :=
  ∀ s t : State, s.Inv → s.busy = true → s.nextEdge.ports.rst = false → step s = .next t →
    ∃ bs : List Byte, t.taken ++ t.pq = s.taken ++ s.pq ++ bs ∧
      (bs ≠ [] → s.pq = [] ∧ t.pq = bs ∧ bs.length ≤ 3 ∧ (s.phase = .num ∨ s.phase = .alnum ∨ s.phase = .byte))

/-! ## The machine against the reference function -/

/-- R90, R101: the reference function is total: every buffer's decode halts with one of the three reasons within
2*L + 1 turns of the loop (more turns change nothing); the empty buffer's halts with EXHAUST and no output (R103). -/
def Obligations.ReferenceTotal : Prop :=
  (∀ buf : List Byte, (refDecode buf).2 ≠ .none) ∧
  (∀ (buf : List Byte) (fuel : Nat), 2 * buf.length + 1 ≤ fuel → refLoop buf fuel 0 = refDecode buf) ∧
  refDecode [] = ([], .exhaust)

/-- R208: a decode emits at most 1023 * 2 * L bytes. -/
def Obligations.OutputLengthBound : Prop :=
  ∀ buf : List Byte, (refDecode buf).1.length ≤ 1023 * 2 * buf.length

/-- The one-step form of R91: at every edge of a decode in progress, the bytes taken, those queued and those the reference
function still owes make the same sequence after the edge as before it, and the reason owed is the same. -/
def Obligations.StepRefinesReference : Prop :=
  ∀ (s t : State) (buf : List Byte), s.Inv → s.busy = true → s.Holds buf → s.nextEdge.ports.rst = false →
    step s = .next t →
    t.taken ++ t.pq ++ (t.owes buf).1 = s.taken ++ s.pq ++ (s.owes buf).1 ∧ (t.owes buf).2 = (s.owes buf).2

/-- R91: for every buffer and every schedule of the host's and the decoder's steps from a START that takes effect to the first
`done = 1`, the bytes the host took are exactly the output, and the halt reason exactly the reason, of the reference
function. -/
def Obligations.MachineRefinesReference : Prop :=
  ∀ (s0 s t : State) (buf : List Byte) (k : Nat), s0.Inv → s0.busy = false → buf.length ≤ s0.cwDepth →
    (∀ a, a < buf.length → Memory.read s0.cw a = buf[a]?) →
    exec (.start buf.length) s0 = .next s →
    (∀ e ∈ s.inputs.take k, e.ports.rst = false) →
    (∀ j, j < k → ∀ u, core.run j s = .next u → u.done = false) →
    core.run k s = .next t → t.done = true →
    (t.taken, t.hr) = refDecode buf

/-- R208, and the bounded form of R210 for schedules that serve both sides at one edge (FairDecodeReachesDone has the rule
itself): from the loop head of a loaded decode, once 2734*L + 1 edges have come at which the decoder takes its step and
the host takes a byte (688*L + 1 decoder steps and 2046*L bytes), `done` has risen, however many other edges without reset
stand between them. -/
def Obligations.ServedDecodeReachesDone : Prop :=
  ∀ (s : State) (k : Nat), s.Inv → s.Loaded → s.phase = .hdr →
    (∀ e ∈ s.inputs.take k, e.ports.rst = false) →
    2734 * s.L + 1 ≤ (s.inputs.take k).countP Edge.serving →
    ∃ j, j ≤ k ∧ ∃ t, core.run j s = .next t ∧ t.done = true

/-- R210: in the run of any schedule that is weakly fair to the decoder and weakly fair on the host's output side, at edges that
need not coincide, a decode that is not reset (R201) and does not fault reaches `done`. The buffer need not be all loaded. -/
def Obligations.FairDecodeReachesDone : Prop :=
  ∀ (σ : Schedule) (s : State), s.Inv → s.busy = true → σ.DecoderFair s → σ.HostFair s → σ.LetsDecodeRun s →
    ∃ k t, σ.run k s = .next t ∧ t.done = true ∧ ∀ j, j < k → ∃ u, σ.run j s = .next u ∧ u.busy = true

/-- R101, R208: a decode takes at most 688*L + 1 decoder steps: in every run from the loop head that stays busy, at most so
many edges are ones at which an enabled decoder takes its step. -/
def Obligations.DecoderStepBound : Prop :=
  ∀ (s : State) (k : Nat), s.Inv → s.phase = .hdr →
    (∀ j, j < k → ∃ u, core.run j s = .next u ∧ u.busy = true) →
    (List.range k).countP (fun j =>
      match core.run j s with
      | .next u => u.decoderEnabled && u.nextEdge.decoderGo && !u.nextEdge.ports.rst
      | .fault _ => false
      | .refused _ => false) ≤ 688 * s.L + 1

/-- R77, R83, R102: a program of whole segments, a terminator and anything the assembler takes after it decodes to the
segments' own strings in order, and halts with TERM; and without anything after it the assembler takes it. -/
def Obligations.AssembledProgramDecodes : Prop :=
  (∀ (ps : List Pseudo) (rest : List AsmLine) (buf : List Byte),
    (∀ p ∈ ps, isSegment p = true ∧ pseudoWf p = true) →
    assemble (ps.map AsmLine.pseudo ++ AsmLine.pseudo .term :: rest) = some buf →
    refDecode buf = (ps.flatMap payload, .term)) ∧
  ∀ ps : List Pseudo, (∀ p ∈ ps, isSegment p = true ∧ pseudoWf p = true) →
    ∃ buf, assemble (ps.map AsmLine.pseudo ++ [AsmLine.pseudo .term]) = some buf
end

