-- ==== Sys2Proof/Laws/Memory.lean ====
section
/-! SUPPORT. The codeword RAM: read after write, and that every memory operation keeps the canonical form. -/

namespace Sys2Proof.Machine

@[simp] theorem Memory.read_nil (a : Nat) : Memory.read [] a = none := rfl

theorem Memory.read_write_same (m : Memory) (a : Nat) (b : Byte) : Memory.read (Memory.write m a b) a = some b := by
  induction m with
  | nil => simp [Memory.write, Memory.read]
  | cons c m ih =>
    obtain ⟨k, x⟩ := c
    by_cases hlt : a < k
    · simp [Memory.write, Memory.read, hlt]
    · by_cases he : a = k
      · simp [Memory.write, Memory.read, he]
      · simp [Memory.write, Memory.read, hlt, he, Ne.symm he, ih]

theorem Memory.read_write_ne (m : Memory) {a a' : Nat} (b : Byte) (h : a' ≠ a) :
    Memory.read (Memory.write m a b) a' = Memory.read m a' := by
  induction m with
  | nil => simp [Memory.write, Memory.read, Ne.symm h]
  | cons c m ih =>
    obtain ⟨k, x⟩ := c
    by_cases hlt : a < k
    · simp [Memory.write, Memory.read, hlt, Ne.symm h]
    · by_cases he : a = k
      · subst he
        simp [Memory.write, Memory.read, Ne.symm h]
      · simp [Memory.write, Memory.read, hlt, he, ih]

theorem Memory.rising_mono {m : Memory} {lo lo' : Nat} (h : Memory.rising m lo = true) (hle : lo' ≤ lo) :
    Memory.rising m lo' = true := by
  cases m with
  | nil => rfl
  | cons c m =>
    simp only [Memory.rising, Bool.and_eq_true, decide_eq_true_eq] at h ⊢
    exact ⟨by omega, h.2⟩

theorem Memory.rising_write {m : Memory} {lo a : Nat} (b : Byte) (h : Memory.rising m lo = true) (ha : lo ≤ a) :
    Memory.rising (Memory.write m a b) lo = true := by
  induction m generalizing lo with
  | nil => simp [Memory.write, Memory.rising, ha]
  | cons c m ih =>
    obtain ⟨k, x⟩ := c
    simp only [Memory.rising, Bool.and_eq_true, decide_eq_true_eq] at h
    by_cases hlt : a < k
    · simp only [Memory.write, if_pos hlt, Memory.rising, Bool.and_eq_true, decide_eq_true_eq]
      exact ⟨ha, by omega, h.2⟩
    · by_cases he : a = k
      · subst he
        simp [Memory.write, Memory.rising, h.1, h.2]
      · simp only [Memory.write, if_neg hlt, if_neg he, Memory.rising, Bool.and_eq_true, decide_eq_true_eq]
        exact ⟨h.1, ih h.2 (by omega)⟩

/-- A write keeps the canonical form. -/
theorem Memory.wf_write {m : Memory} (a : Nat) (b : Byte) (h : Memory.wf m = true) :
    Memory.wf (Memory.write m a b) = true :=
  Memory.rising_write b h (Nat.zero_le a)

/-- A run of writes keeps the canonical form. -/
theorem Memory.wf_writeFrom {m : Memory} (a : Nat) (bs : List Byte) (h : Memory.wf m = true) :
    Memory.wf (Memory.writeFrom m a bs) = true := by
  induction bs generalizing m a with
  | nil => exact h
  | cons b bs ih => exact ih (a + 1) (Memory.wf_write a b h)

/-- A write inside the buffer keeps every address inside it. -/
theorem Memory.below_write {m : Memory} {a depth : Nat} (b : Byte) (h : Memory.below m depth = true) (ha : a < depth) :
    Memory.below (Memory.write m a b) depth = true := by
  induction m with
  | nil => simp [Memory.write, Memory.below, ha]
  | cons c m ih =>
    obtain ⟨k, x⟩ := c
    simp only [Memory.below, List.all_cons, Bool.and_eq_true, decide_eq_true_eq] at h ih
    by_cases hlt : a < k
    · simp only [Memory.write, if_pos hlt, Memory.below, List.all_cons, Bool.and_eq_true, decide_eq_true_eq]
      exact ⟨ha, h.1, h.2⟩
    · by_cases he : a = k
      · simp only [Memory.write, if_neg hlt, if_pos he, Memory.below, List.all_cons, Bool.and_eq_true, decide_eq_true_eq]
        exact ⟨ha, h.2⟩
      · simp only [Memory.write, if_neg hlt, if_neg he, Memory.below, List.all_cons, Bool.and_eq_true, decide_eq_true_eq]
        exact ⟨h.1, ih h.2⟩

/-- The memory of the reset state has the canonical form. -/
theorem State.resetWith_cw_wf (depth : Nat) : Memory.wf (State.resetWith depth).cw = true := rfl

/-- The invariant is what its check says. -/
theorem State.inv_iff_check (s : State) : s.Inv ↔ s.invCheck = true := by
  unfold State.invCheck
  simp only [Bool.and_eq_true, decide_eq_true_eq]
  constructor
  · intro h
    exact ⟨⟨⟨⟨⟨⟨⟨h.depth_pos, h.len_le⟩, h.cur_le⟩, h.pq_le⟩, h.cw_wf⟩, h.cw_below⟩, h.mode_legal⟩, h.phase_ok⟩
  · rintro ⟨⟨⟨⟨⟨⟨⟨h1, h2⟩, h3⟩, h4⟩, h5⟩, h6⟩, h7⟩, h8⟩
    exact ⟨h1, h2, h3, h4, h5, h6, h7, h8⟩

end Sys2Proof.Machine
end

