-- ==== Sys2Proof/Laws/State.lean ====
section
/-! SUPPORT. What each update of the state leaves in each field: one lemma per field per update. -/

namespace Sys2Proof.Machine

/-! `State.advance` -/

@[simp] theorem State.advance_phase (s : State) (k : Nat) : (s.advance k).phase = s.phase := rfl
@[simp] theorem State.advance_L (s : State) (k : Nat) : (s.advance k).L = s.L := rfl
@[simp] theorem State.advance_cur (s : State) (k : Nat) : (s.advance k).cur = s.cur + k := rfl
@[simp] theorem State.advance_mode (s : State) (k : Nat) : (s.advance k).mode = s.mode := rfl
@[simp] theorem State.advance_rem (s : State) (k : Nat) : (s.advance k).rem = s.rem := rfl
@[simp] theorem State.advance_pq (s : State) (k : Nat) : (s.advance k).pq = s.pq := rfl
@[simp] theorem State.advance_hr (s : State) (k : Nat) : (s.advance k).hr = s.hr := rfl
@[simp] theorem State.advance_cw (s : State) (k : Nat) : (s.advance k).cw = s.cw := rfl
@[simp] theorem State.advance_cwDepth (s : State) (k : Nat) : (s.advance k).cwDepth = s.cwDepth := rfl
@[simp] theorem State.advance_taken (s : State) (k : Nat) : (s.advance k).taken = s.taken := rfl
@[simp] theorem State.advance_inputs (s : State) (k : Nat) : (s.advance k).inputs = s.inputs := rfl

/-! `State.emit` -/

@[simp] theorem State.emit_phase (s : State) (bs : List Byte) : (s.emit bs).phase = s.phase := rfl
@[simp] theorem State.emit_L (s : State) (bs : List Byte) : (s.emit bs).L = s.L := rfl
@[simp] theorem State.emit_cur (s : State) (bs : List Byte) : (s.emit bs).cur = s.cur := rfl
@[simp] theorem State.emit_mode (s : State) (bs : List Byte) : (s.emit bs).mode = s.mode := rfl
@[simp] theorem State.emit_rem (s : State) (bs : List Byte) : (s.emit bs).rem = s.rem := rfl
@[simp] theorem State.emit_pq (s : State) (bs : List Byte) : (s.emit bs).pq = s.pq ++ bs := rfl
@[simp] theorem State.emit_hr (s : State) (bs : List Byte) : (s.emit bs).hr = s.hr := rfl
@[simp] theorem State.emit_cw (s : State) (bs : List Byte) : (s.emit bs).cw = s.cw := rfl
@[simp] theorem State.emit_cwDepth (s : State) (bs : List Byte) : (s.emit bs).cwDepth = s.cwDepth := rfl
@[simp] theorem State.emit_taken (s : State) (bs : List Byte) : (s.emit bs).taken = s.taken := rfl
@[simp] theorem State.emit_inputs (s : State) (bs : List Byte) : (s.emit bs).inputs = s.inputs := rfl

/-! `State.setRem` -/

@[simp] theorem State.setRem_phase (s : State) (n : Nat) : (s.setRem n).phase = s.phase := rfl
@[simp] theorem State.setRem_L (s : State) (n : Nat) : (s.setRem n).L = s.L := rfl
@[simp] theorem State.setRem_cur (s : State) (n : Nat) : (s.setRem n).cur = s.cur := rfl
@[simp] theorem State.setRem_mode (s : State) (n : Nat) : (s.setRem n).mode = s.mode := rfl
@[simp] theorem State.setRem_rem (s : State) (n : Nat) : (s.setRem n).rem = BitVec.ofNat 10 n := rfl
@[simp] theorem State.setRem_pq (s : State) (n : Nat) : (s.setRem n).pq = s.pq := rfl
@[simp] theorem State.setRem_hr (s : State) (n : Nat) : (s.setRem n).hr = s.hr := rfl
@[simp] theorem State.setRem_cw (s : State) (n : Nat) : (s.setRem n).cw = s.cw := rfl
@[simp] theorem State.setRem_cwDepth (s : State) (n : Nat) : (s.setRem n).cwDepth = s.cwDepth := rfl
@[simp] theorem State.setRem_taken (s : State) (n : Nat) : (s.setRem n).taken = s.taken := rfl
@[simp] theorem State.setRem_inputs (s : State) (n : Nat) : (s.setRem n).inputs = s.inputs := rfl

/-! `State.goto` -/

@[simp] theorem State.goto_phase (s : State) (p : Phase) : (s.goto p).phase = p := rfl
@[simp] theorem State.goto_L (s : State) (p : Phase) : (s.goto p).L = s.L := rfl
@[simp] theorem State.goto_cur (s : State) (p : Phase) : (s.goto p).cur = s.cur := rfl
@[simp] theorem State.goto_mode (s : State) (p : Phase) : (s.goto p).mode = s.mode := rfl
@[simp] theorem State.goto_rem (s : State) (p : Phase) : (s.goto p).rem = s.rem := rfl
@[simp] theorem State.goto_pq (s : State) (p : Phase) : (s.goto p).pq = s.pq := rfl
@[simp] theorem State.goto_hr (s : State) (p : Phase) : (s.goto p).hr = s.hr := rfl
@[simp] theorem State.goto_cw (s : State) (p : Phase) : (s.goto p).cw = s.cw := rfl
@[simp] theorem State.goto_cwDepth (s : State) (p : Phase) : (s.goto p).cwDepth = s.cwDepth := rfl
@[simp] theorem State.goto_taken (s : State) (p : Phase) : (s.goto p).taken = s.taken := rfl
@[simp] theorem State.goto_inputs (s : State) (p : Phase) : (s.goto p).inputs = s.inputs := rfl

/-! `State.setMode` -/

@[simp] theorem State.setMode_phase (s : State) (m : Nibble) : (s.setMode m).phase = s.phase := rfl
@[simp] theorem State.setMode_L (s : State) (m : Nibble) : (s.setMode m).L = s.L := rfl
@[simp] theorem State.setMode_cur (s : State) (m : Nibble) : (s.setMode m).cur = s.cur := rfl
@[simp] theorem State.setMode_mode (s : State) (m : Nibble) : (s.setMode m).mode = m := rfl
@[simp] theorem State.setMode_rem (s : State) (m : Nibble) : (s.setMode m).rem = s.rem := rfl
@[simp] theorem State.setMode_pq (s : State) (m : Nibble) : (s.setMode m).pq = s.pq := rfl
@[simp] theorem State.setMode_hr (s : State) (m : Nibble) : (s.setMode m).hr = s.hr := rfl
@[simp] theorem State.setMode_cw (s : State) (m : Nibble) : (s.setMode m).cw = s.cw := rfl
@[simp] theorem State.setMode_cwDepth (s : State) (m : Nibble) : (s.setMode m).cwDepth = s.cwDepth := rfl
@[simp] theorem State.setMode_taken (s : State) (m : Nibble) : (s.setMode m).taken = s.taken := rfl
@[simp] theorem State.setMode_inputs (s : State) (m : Nibble) : (s.setMode m).inputs = s.inputs := rfl

/-! `State.halt` -/

@[simp] theorem State.halt_phase (s : State) (r : HaltReason) : (s.halt r).phase = .done := rfl
@[simp] theorem State.halt_L (s : State) (r : HaltReason) : (s.halt r).L = s.L := rfl
@[simp] theorem State.halt_cur (s : State) (r : HaltReason) : (s.halt r).cur = s.cur := rfl
@[simp] theorem State.halt_mode (s : State) (r : HaltReason) : (s.halt r).mode = s.mode := rfl
@[simp] theorem State.halt_rem (s : State) (r : HaltReason) : (s.halt r).rem = s.rem := rfl
@[simp] theorem State.halt_pq (s : State) (r : HaltReason) : (s.halt r).pq = s.pq := rfl
@[simp] theorem State.halt_hr (s : State) (r : HaltReason) : (s.halt r).hr = r := rfl
@[simp] theorem State.halt_cw (s : State) (r : HaltReason) : (s.halt r).cw = s.cw := rfl
@[simp] theorem State.halt_cwDepth (s : State) (r : HaltReason) : (s.halt r).cwDepth = s.cwDepth := rfl
@[simp] theorem State.halt_taken (s : State) (r : HaltReason) : (s.halt r).taken = s.taken := rfl
@[simp] theorem State.halt_inputs (s : State) (r : HaltReason) : (s.halt r).inputs = s.inputs := rfl

/-! `State.applyReset` -/

@[simp] theorem State.applyReset_phase (s : State) : (s.applyReset).phase = .idle := rfl
@[simp] theorem State.applyReset_L (s : State) : (s.applyReset).L = 0 := rfl
@[simp] theorem State.applyReset_cur (s : State) : (s.applyReset).cur = 0 := rfl
@[simp] theorem State.applyReset_mode (s : State) : (s.applyReset).mode = 0 := rfl
@[simp] theorem State.applyReset_rem (s : State) : (s.applyReset).rem = 0 := rfl
@[simp] theorem State.applyReset_pq (s : State) : (s.applyReset).pq = [] := rfl
@[simp] theorem State.applyReset_hr (s : State) : (s.applyReset).hr = .none := rfl
@[simp] theorem State.applyReset_cw (s : State) : (s.applyReset).cw = s.cw := rfl
@[simp] theorem State.applyReset_cwDepth (s : State) : (s.applyReset).cwDepth = s.cwDepth := rfl
@[simp] theorem State.applyReset_taken (s : State) : (s.applyReset).taken = s.taken := rfl
@[simp] theorem State.applyReset_inputs (s : State) : (s.applyReset).inputs = s.inputs := rfl

/-! `State.dropEdge` -/

@[simp] theorem State.dropEdge_phase (s : State) : (s.dropEdge).phase = s.phase := rfl
@[simp] theorem State.dropEdge_L (s : State) : (s.dropEdge).L = s.L := rfl
@[simp] theorem State.dropEdge_cur (s : State) : (s.dropEdge).cur = s.cur := rfl
@[simp] theorem State.dropEdge_mode (s : State) : (s.dropEdge).mode = s.mode := rfl
@[simp] theorem State.dropEdge_rem (s : State) : (s.dropEdge).rem = s.rem := rfl
@[simp] theorem State.dropEdge_pq (s : State) : (s.dropEdge).pq = s.pq := rfl
@[simp] theorem State.dropEdge_hr (s : State) : (s.dropEdge).hr = s.hr := rfl
@[simp] theorem State.dropEdge_cw (s : State) : (s.dropEdge).cw = s.cw := rfl
@[simp] theorem State.dropEdge_cwDepth (s : State) : (s.dropEdge).cwDepth = s.cwDepth := rfl
@[simp] theorem State.dropEdge_taken (s : State) : (s.dropEdge).taken = s.taken := rfl
@[simp] theorem State.dropEdge_inputs (s : State) : (s.dropEdge).inputs = s.inputs.tail := rfl

/-! Functions of the state that an update does not touch. -/

@[simp] theorem State.avail_advance (s : State) (k : Nat) : (s.advance k).avail = s.avail - k := by
  simp [State.avail]; omega

@[simp] theorem State.busy_dropEdge (s : State) : s.dropEdge.busy = s.busy := rfl

@[simp] theorem State.avail_dropEdge (s : State) : s.dropEdge.avail = s.avail := rfl

@[simp] theorem State.decoderEnabled_dropEdge (s : State) : s.dropEdge.decoderEnabled = s.decoderEnabled := rfl

@[simp] theorem State.busy_halt (s : State) (r : HaltReason) : (s.halt r).busy = false := rfl

theorem State.decoderEnabled_iff (s : State) : s.decoderEnabled = true ↔ s.busy = true ∧ s.pq = [] := by
  simp [State.decoderEnabled]

theorem State.busy_iff (s : State) : s.busy = true ↔ s.phase ≠ .idle ∧ s.phase ≠ .done := by
  unfold State.busy
  cases s.phase <;> simp

end Sys2Proof.Machine
end

