-- ==== Sys2Proof/Laws/Operands.lean ====
section
/-! SUPPORT. The bit-read primitive: what it answers, and that it reads what the reference function reads. -/

namespace Sys2Proof.Machine

theorem readBit_lt_two {m : Memory} {i v : Nat} (h : readBit m i = .ok v) : v < 2 := by
  unfold readBit at h
  split at h
  · cases h; exact Nat.mod_lt _ (by decide)
  · cases h

/-- A bit's read faults only on an unwritten byte, with that byte's address. -/
theorem readBit_error {m : Memory} {i : Nat} {f : Fault} (h : readBit m i = .error f) :
    f = .uninitRead (i / 8) ∧ Memory.read m (i / 8) = none := by
  unfold readBit at h
  split at h
  · cases h
  · rename_i hn; cases h; exact ⟨rfl, hn⟩

/-- The loop's value stays below `(v + 1) * 2^k`. -/
theorem readBitsLoop_lt {m : Memory} {k v i w : Nat} (h : readBitsLoop m v i k = .ok w) : w < (v + 1) * 2 ^ k := by
  induction k generalizing v i with
  | zero => cases h; simp
  | succ k ih =>
    simp only [readBitsLoop] at h
    split at h
    · rename_i b hb
      have hb2 := readBit_lt_two hb
      have := ih h
      calc w < (2 * v + b + 1) * 2 ^ k := this
        _ ≤ (2 * (v + 1)) * 2 ^ k := Nat.mul_le_mul_right _ (by omega)
        _ = (v + 1) * 2 ^ (k + 1) := by ring
    · cases h

/-- The loop faults only on an unwritten byte that holds one of its bits, and the bytes of the bits before it are written. -/
theorem readBitsLoop_error {m : Memory} {k v i : Nat} {f : Fault} (h : readBitsLoop m v i k = .error f) :
    ∃ j, j < k ∧ f = .uninitRead ((i + j) / 8) ∧ Memory.read m ((i + j) / 8) = none ∧
      ∀ l, l < j → (Memory.read m ((i + l) / 8)).isSome = true := by
  induction k generalizing v i with
  | zero => cases h
  | succ k ih =>
    simp only [readBitsLoop] at h
    split at h
    · rename_i b hb
      obtain ⟨j, hj, hf, hn, hl⟩ := ih h
      refine ⟨j + 1, by omega, by rw [hf]; congr 2; omega, by rw [← hn]; congr 2; omega, ?_⟩
      intro l hlt
      rcases l with _ | l
      · unfold readBit at hb
        split at hb
        · rename_i x hx; simp [hx]
        · cases hb
      · have := hl l (by omega)
        rw [← this]; congr 3; omega
    · rename_i f' hf
      obtain ⟨rfl, hn⟩ := readBit_error hf
      cases h
      exact ⟨0, by omega, rfl, hn, fun l hl => absurd hl (by omega)⟩

/-- Where a buffer holds the same bytes, the loop reads what the reference function reads. -/
theorem readBitsLoop_eq_refBits {m : Memory} {buf : List Byte} {k v i : Nat}
    (h : ∀ j, j < k → Memory.read m ((i + j) / 8) = some (buf.getD ((i + j) / 8) 0)) :
    readBitsLoop m v i k = .ok (refBits buf v i k) := by
  induction k generalizing v i with
  | zero => rfl
  | succ k ih =>
    have h0 := h 0 (by omega)
    simp only [Nat.add_zero] at h0
    simp only [readBitsLoop, readBit, h0, refBits]
    exact ih fun j hj => by
      have := h (j + 1) (by omega)
      rwa [show i + (j + 1) = i + 1 + j by omega] at this

/-- ReadBits, when it answers a value: the value fits the bits read and only the cursor moves. -/
theorem readBits_ok {n : Nat} {s s' : State} {v : Nat} (h : readBits n s = .ok (v, s')) :
    s' = s.advance (min n s.avail) ∧ v < 2 ^ min n s.avail := by
  unfold readBits at h
  split at h
  · rename_i w hw
    cases h
    have := readBitsLoop_lt hw
    exact ⟨rfl, by simpa using this⟩
  · cases h

/-- ReadBits, when it faults: the first unwritten byte among those of its bits. -/
theorem readBits_error {n : Nat} {s : State} {f : Fault} (h : readBits n s = .error f) :
    ∃ j, j < min n s.avail ∧ f = .uninitRead ((s.cur + j) / 8) ∧ Memory.read s.cw ((s.cur + j) / 8) = none ∧
      ∀ l, l < j → (Memory.read s.cw ((s.cur + l) / 8)).isSome = true := by
  unfold readBits at h
  split at h
  · cases h
  · rename_i g hg
    cases h
    exact readBitsLoop_error hg

@[simp] theorem State.buffer_length (s : State) : s.buffer.length = s.L := by simp [State.buffer]

theorem State.buffer_getD {s : State} {a : Nat} (h : a < s.L) :
    s.buffer.getD a 0 = (Memory.read s.cw a).getD 0 := by
  simp [State.buffer, List.getD_eq_getElem?_getD, List.getElem?_map, List.getElem?_range h]

/-- On a loaded field ReadBits answers the field's value. -/
theorem readBits_of_loaded {n : Nat} {s : State} (h : s.FieldLoaded n) :
    readBits n s = .ok (s.field n, s.advance (min n s.avail)) := by
  have hl : readBitsLoop s.cw 0 s.cur (min n s.avail) = .ok (refBits s.buffer 0 s.cur (min n s.avail)) := by
    refine readBitsLoop_eq_refBits fun j hj => ?_
    have hs := h j hj
    have hlt : (s.cur + j) / 8 < s.L := by
      have : min n s.avail ≤ s.avail := Nat.min_le_right ..
      unfold State.avail at *
      omega
    rw [State.buffer_getD hlt]
    cases hr : Memory.read s.cw ((s.cur + j) / 8) with
    | none => simp [hr] at hs
    | some b => rfl
  rw [readBits, hl]
  simp only [State.field, refRead, refAvail, State.buffer_length, State.avail]

/-- If ReadBits answers, its field is loaded. -/
theorem loaded_of_readBits {n : Nat} {s s' : State} {v : Nat} (h : readBits n s = .ok (v, s')) : s.FieldLoaded n := by
  intro j hj
  by_contra hc
  have hn : Memory.read s.cw ((s.cur + j) / 8) = none := by simpa using hc
  have key : ∀ k v i, j < k → Memory.read s.cw ((i + j) / 8) = none → ∃ f, readBitsLoop s.cw v i k = .error f := by
    clear hn hc hj h
    induction j with
    | zero =>
      intro k v i hk hn
      obtain ⟨k, rfl⟩ := Nat.exists_eq_succ_of_ne_zero (by omega : k ≠ 0)
      exact ⟨.uninitRead (i / 8), by simp only [Nat.add_zero] at hn; simp [readBitsLoop, readBit, hn]⟩
    | succ j ih =>
      intro k v i hk hn
      obtain ⟨k, rfl⟩ := Nat.exists_eq_succ_of_ne_zero (by omega : k ≠ 0)
      simp only [readBitsLoop]
      split
      · exact ih k _ _ (by omega) (by rwa [show i + 1 + j = i + (j + 1) by omega])
      · exact ⟨_, rfl⟩
  obtain ⟨f, hf⟩ := key (min n s.avail) 0 s.cur hj hn
  simp [readBits, hf] at h

/-- A step that begins with a field: it answers by its continuation on the field's value, or the field is not loaded and it
faults. -/
theorem withField_cases (n : Nat) (s : State) (k : Nat → State → Result) :
    (s.FieldLoaded n ∧ s.field n < 2 ^ min n s.avail ∧ withField n s k = k (s.field n) (s.advance (min n s.avail))) ∨
      ∃ j, j < min n s.avail ∧ Memory.read s.cw ((s.cur + j) / 8) = none ∧
        (∀ l, l < j → (Memory.read s.cw ((s.cur + l) / 8)).isSome = true) ∧
        withField n s k = .fault (.uninitRead ((s.cur + j) / 8)) := by
  cases h : readBits n s with
  | ok p =>
    obtain ⟨v, s'⟩ := p
    have hl := loaded_of_readBits h
    have h' := readBits_of_loaded hl
    rw [h] at h'
    cases h'
    exact .inl ⟨hl, (readBits_ok h).2, by simp [withField, h]⟩
  | error f =>
    obtain ⟨j, hj, rfl, hn, hp⟩ := readBits_error h
    exact .inr ⟨j, hj, hn, hp, by simp [withField, h]⟩

/-- On a loaded field the step goes on with the field's value. -/
theorem withField_of_loaded {n : Nat} {s : State} (k : Nat → State → Result) (h : s.FieldLoaded n) :
    withField n s k = k (s.field n) (s.advance (min n s.avail)) := by
  simp [withField, readBits_of_loaded h]

@[simp] theorem ant_length : ant.length = 45 := rfl

theorem antBytes_length_le (i : Nat) : (antBytes i).length ≤ 1 := by
  unfold antBytes; split <;> simp

theorem antPairBytes_length_le (v : Nat) : (antPairBytes v).length ≤ 2 := by
  have h1 := antBytes_length_le (v / 45)
  have h2 := antBytes_length_le (v % 45)
  simp only [antPairBytes, List.length_append]
  omega

@[simp] theorem tripleBytes_length (v : Nat) : (tripleBytes v).length = 3 := rfl

@[simp] theorem pairBytes_length (v : Nat) : (pairBytes v).length = 2 := rfl

end Sys2Proof.Machine
end

