-- ==== Sys2Proof/Laws/PerInstr.lean ====
section
/-! SUPPORT. Statements made of every instruction as syntax, one lemma per constructor. -/

namespace Sys2Proof.Laws.RoundTrip

/-- An instruction's code decodes to it and to nothing else; a host command's code fits its ports when the command is well
formed. -/
def Statement (i : Instr) : Prop :=
  decode (encode i) = [i] ∧
    ∀ depth p, i.wf depth = true → encode i = .ports p → p.wf depth = true

theorem term : Statement .term := ⟨rfl, fun _ _ _ h => by cases h⟩

theorem num : Statement .num := ⟨rfl, fun _ _ _ h => by cases h⟩

theorem alnum : Statement .alnum := ⟨rfl, fun _ _ _ h => by cases h⟩

theorem byte : Statement .byte := ⟨rfl, fun _ _ _ h => by cases h⟩

theorem kanji : Statement .kanji := ⟨rfl, fun _ _ _ h => by cases h⟩

theorem unsup0011 : Statement .unsup0011 := ⟨rfl, fun _ _ _ h => by cases h⟩

theorem unsup0101 : Statement .unsup0101 := ⟨rfl, fun _ _ _ h => by cases h⟩

theorem unsup0110 : Statement .unsup0110 := ⟨rfl, fun _ _ _ h => by cases h⟩

theorem unsup0111 : Statement .unsup0111 := ⟨rfl, fun _ _ _ h => by cases h⟩

theorem unsup1001 : Statement .unsup1001 := ⟨rfl, fun _ _ _ h => by cases h⟩

theorem unsup1010 : Statement .unsup1010 := ⟨rfl, fun _ _ _ h => by cases h⟩

theorem unsup1011 : Statement .unsup1011 := ⟨rfl, fun _ _ _ h => by cases h⟩

theorem unsup1100 : Statement .unsup1100 := ⟨rfl, fun _ _ _ h => by cases h⟩

theorem unsup1101 : Statement .unsup1101 := ⟨rfl, fun _ _ _ h => by cases h⟩

theorem unsup1110 : Statement .unsup1110 := ⟨rfl, fun _ _ _ h => by cases h⟩

theorem unsup1111 : Statement .unsup1111 := ⟨rfl, fun _ _ _ h => by cases h⟩

theorem load (a : Nat) (b : Byte) : Statement (.load a b) := by
  refine ⟨rfl, fun depth p hw h => ?_⟩
  cases h
  simpa [PortIn.wf, PortIn.quiet, Instr.wf] using hw

theorem start (n : Nat) : Statement (.start n) := by
  refine ⟨rfl, fun depth p hw h => ?_⟩
  cases h
  simpa [PortIn.wf, PortIn.quiet, Instr.wf] using hw

theorem pop : Statement .pop := by
  refine ⟨rfl, fun depth p _ h => ?_⟩
  cases h
  simp [PortIn.wf, PortIn.quiet]

end Sys2Proof.Laws.RoundTrip
end

