-- ==== Sys2Proof/Laws/Segments.lean ====
section
/-! SUPPORT. What the shared operations of the segments and of the edge can do, each said once. -/

namespace Sys2Proof.Machine

/-- A halting segment, when it answers: a hold, or a halt at the loop head. -/
theorem haltSegment_cases {r : HaltReason} {s t : State} (h : haltSegment r s = .next t) :
    (s.decoderEnabled = false ∧ t = s) ∨
      (s.decoderEnabled = true ∧ s.phase = .hdr ∧ s.avail < 4 ∧ t = s.halt .exhaust) ∨
      (s.decoderEnabled = true ∧ s.phase = .hdr ∧ 4 ≤ s.avail ∧ t = (s.advance 4).halt r) := by
  unfold haltSegment headerStep wMode at h
  by_cases he : s.decoderEnabled = true
  · rw [if_pos he] at h
    split at h <;> try cases h
    rename_i hp
    split at h
    · rename_i ha; cases h; exact .inr (.inl ⟨he, hp, ha, rfl⟩)
    · rename_i ha; cases h; exact .inr (.inr ⟨he, hp, by omega, rfl⟩)
  · rw [if_neg he] at h
    cases h
    exact .inl ⟨by simpa using he, rfl⟩

/-- The CNT step, when it answers. -/
theorem countStep_cases {w : Nat} {p : Phase} {s t : State} (h : countStep w p s = .next t) :
    s.FieldLoaded w ∧ s.field w < 2 ^ min w s.avail ∧
      t = ((s.advance (min w s.avail)).setRem (s.field w)).goto p := by
  unfold countStep at h
  rcases withField_cases w s fun v s' => .next ((s'.setRem v).goto p) with ⟨hl, hv, he⟩ | ⟨j, _, _, _, he⟩
  · rw [he] at h; cases h; exact ⟨hl, hv, rfl⟩
  · rw [he] at h; cases h

/-- A counted segment, when it answers: a hold, EXHAUST, the mode latched, the count read, or its body's step. -/
theorem countedSegment_cases {m : Nibble} {w : Nat} {p : Phase} {body : State → Result} {s t : State}
    (h : countedSegment m w p body s = .next t) :
    (s.decoderEnabled = false ∧ t = s) ∨
      (s.decoderEnabled = true ∧ s.phase = .hdr ∧ s.avail < 4 ∧ t = s.halt .exhaust) ∨
      (s.decoderEnabled = true ∧ s.phase = .hdr ∧ 4 ≤ s.avail ∧ t = latchMode m (s.advance 4)) ∨
      (s.decoderEnabled = true ∧ s.phase = .cnt ∧ s.mode = m ∧ countStep w p s = .next t) ∨
      (s.decoderEnabled = true ∧ s.phase = p ∧ s.phase ≠ .hdr ∧ s.phase ≠ .cnt ∧ body s = .next t) := by
  unfold countedSegment headerStep wMode at h
  by_cases he : s.decoderEnabled = true
  · rw [if_pos he] at h
    split at h
    · rename_i hp
      split at h
      · rename_i ha; cases h; exact .inr (.inl ⟨he, hp, ha, rfl⟩)
      · rename_i ha; cases h; exact .inr (.inr (.inl ⟨he, hp, by omega, rfl⟩))
    · rename_i hp
      split at h
      · rename_i hm; exact .inr (.inr (.inr (.inl ⟨he, hp, hm, h⟩)))
      · cases h
    · rename_i h1 h2
      split at h
      · rename_i hp; exact .inr (.inr (.inr (.inr ⟨he, hp, h1, h2, h⟩)))
      · cases h
  · rw [if_neg he] at h
    cases h
    exact .inl ⟨by simpa using he, rfl⟩

/-- A counted segment at the loop head. -/
theorem countedSegment_hdr {m : Nibble} {w : Nat} {p : Phase} {body : State → Result} {s : State}
    (he : s.decoderEnabled = true) (hp : s.phase = .hdr) (ha : 4 ≤ s.avail) :
    countedSegment m w p body s = .next (latchMode m (s.advance 4)) := by
  simp [countedSegment, he, hp, headerStep, wMode, Nat.not_lt.mpr ha]

/-- A counted segment in its CNT phase. -/
theorem countedSegment_cnt {m : Nibble} {w : Nat} {p : Phase} {body : State → Result} {s : State}
    (he : s.decoderEnabled = true) (hp : s.phase = .cnt) (hm : s.mode = m) :
    countedSegment m w p body s = countStep w p s := by
  simp [countedSegment, he, hp, hm]

/-- A counted segment in its body phase. -/
theorem countedSegment_body {m : Nibble} {w : Nat} {p : Phase} {body : State → Result} {s : State}
    (he : s.decoderEnabled = true) (hp : s.phase = p) (h1 : p ≠ .hdr) (h2 : p ≠ .cnt) :
    countedSegment m w p body s = body s := by
  subst hp
  unfold countedSegment
  rw [if_pos he]
  split
  · rename_i h; exact absurd h h1
  · rename_i h; exact absurd h h2
  · rw [if_pos rfl]

/-- The NUM body, when it answers (R111). -/
theorem numBody_cases {s t : State} (h : numBody s = .next t) :
    (s.rem.toNat = 0 ∧ t = s.goto .hdr) ∨
      (3 ≤ s.rem.toNat ∧ s.FieldLoaded 10 ∧
        t = ((s.advance (min 10 s.avail)).emit (tripleBytes (s.field 10))).setRem (s.rem.toNat - 3)) ∨
      (s.rem.toNat = 2 ∧ s.FieldLoaded 7 ∧
        t = ((s.advance (min 7 s.avail)).emit (pairBytes (s.field 7))).setRem 0) ∨
      (s.rem.toNat = 1 ∧ s.FieldLoaded 4 ∧
        t = ((s.advance (min 4 s.avail)).emit [digit (s.field 4)]).setRem 0) := by
  unfold numBody wNum3 wNum2 wNum1 at h
  split at h
  · rename_i h0; cases h; exact .inl ⟨h0, rfl⟩
  split at h
  · rename_i h0 h3
    rcases withField_cases 10 s _ with ⟨hl, _, he⟩ | ⟨j, _, _, _, he⟩
    · rw [he] at h; cases h; exact .inr (.inl ⟨h3, hl, rfl⟩)
    · rw [he] at h; cases h
  split at h
  · rename_i h0 h3 h2
    rcases withField_cases 7 s _ with ⟨hl, _, he⟩ | ⟨j, _, _, _, he⟩
    · rw [he] at h; cases h; exact .inr (.inr (.inl ⟨h2, hl, rfl⟩))
    · rw [he] at h; cases h
  · rename_i h0 h3 h2
    rcases withField_cases 4 s _ with ⟨hl, _, he⟩ | ⟨j, _, _, _, he⟩
    · rw [he] at h; cases h; exact .inr (.inr (.inr ⟨by omega, hl, rfl⟩))
    · rw [he] at h; cases h

/-- The ALNUM body, when it answers (R127). -/
theorem alnumBody_cases {s t : State} (h : alnumBody s = .next t) :
    (s.rem.toNat = 0 ∧ t = s.goto .hdr) ∨
      (2 ≤ s.rem.toNat ∧ s.FieldLoaded 11 ∧
        t = ((s.advance (min 11 s.avail)).emit (antPairBytes (s.field 11))).setRem (s.rem.toNat - 2)) ∨
      (s.rem.toNat = 1 ∧ s.FieldLoaded 6 ∧
        t = ((s.advance (min 6 s.avail)).emit (antBytes (s.field 6))).setRem 0) := by
  unfold alnumBody wAn2 wAn1 at h
  split at h
  · rename_i h0; cases h; exact .inl ⟨h0, rfl⟩
  split at h
  · rename_i h0 h2
    rcases withField_cases 11 s _ with ⟨hl, _, he⟩ | ⟨j, _, _, _, he⟩
    · rw [he] at h; cases h; exact .inr (.inl ⟨h2, hl, rfl⟩)
    · rw [he] at h; cases h
  · rename_i h0 h2
    rcases withField_cases 6 s _ with ⟨hl, _, he⟩ | ⟨j, _, _, _, he⟩
    · rw [he] at h; cases h; exact .inr (.inr ⟨by omega, hl, rfl⟩)
    · rw [he] at h; cases h

/-- The BYTE body, when it answers (R141). -/
theorem byteBody_cases {s t : State} (h : byteBody s = .next t) :
    (s.rem.toNat = 0 ∧ t = s.goto .hdr) ∨
      (0 < s.rem.toNat ∧ s.avail < 8 ∧ t = (s.setRem 0).goto .hdr) ∨
      (0 < s.rem.toNat ∧ 8 ≤ s.avail ∧ s.FieldLoaded 8 ∧
        t = ((s.advance (min 8 s.avail)).emit [BitVec.ofNat 8 (s.field 8)]).setRem (s.rem.toNat - 1)) := by
  unfold byteBody wByte at h
  split at h
  · rename_i h0; cases h; exact .inl ⟨h0, rfl⟩
  split at h
  · rename_i h0 ha; cases h; exact .inr (.inl ⟨by omega, ha, rfl⟩)
  · rename_i h0 ha
    rcases withField_cases 8 s _ with ⟨hl, _, he⟩ | ⟨j, _, _, _, he⟩
    · rw [he] at h; cases h; exact .inr (.inr ⟨by omega, by omega, hl, rfl⟩)
    · rw [he] at h; cases h

/-- LOAD always answers: it writes, or has no effect (R161, R164). -/
theorem execLoad_cases (a : Nat) (b : Byte) (s : State) :
    (execLoad a b s = .next s ∧ (s.busy = true ∨ s.cwDepth ≤ a)) ∨
      (s.busy = false ∧ a < s.cwDepth ∧ execLoad a b s = .next { s with cw := Memory.write s.cw a b }) := by
  unfold execLoad
  split
  · rename_i h; exact .inl ⟨rfl, by simpa using h⟩
  · rename_i h
    simp only [Bool.or_eq_true, decide_eq_true_eq, not_or, Bool.not_eq_true, Nat.not_le] at h
    exact .inr ⟨h.1, h.2, rfl⟩

/-- START always answers: it begins a decode, or has no effect (R162, R163). -/
theorem execStart_cases (n : Nat) (s : State) :
    (execStart n s = .next s ∧ (s.busy = true ∨ s.cwDepth < n)) ∨
      (s.busy = false ∧ n ≤ s.cwDepth ∧ execStart n s = .next
        { s with phase := .hdr, L := n, cur := 0, mode := 0b0000, rem := 0, pq := [], hr := .none, taken := [] }) := by
  unfold execStart
  split
  · rename_i h; exact .inl ⟨rfl, by simpa using h⟩
  · rename_i h
    simp only [Bool.or_eq_true, decide_eq_true_eq, not_or, Bool.not_eq_true, Nat.not_lt] at h
    exact .inr ⟨h.1, h.2, rfl⟩

/-- POP always answers: it hands the front byte over, or there is none (R166). -/
theorem execPop_cases (s : State) :
    (s.pq = [] ∧ execPop s = .next s) ∨
      ∃ b rest, s.pq = b :: rest ∧ execPop s = .next { s with pq := rest, taken := s.taken ++ [b] } := by
  unfold execPop
  split
  · rename_i h; exact .inl ⟨h, rfl⟩
  · rename_i b rest h; exact .inr ⟨b, rest, h, rfl⟩

/-- The three host commands that strobes can give, one after the other: the state each leaves. -/
def afterLoad (p : PortIn) (s : State) : State :=
  if p.cwWe && !s.busy && decide (p.cwAddr < s.cwDepth) then { s with cw := Memory.write s.cw p.cwAddr p.cwWdata } else s

/-- The state START leaves. -/
def afterStart (p : PortIn) (s : State) : State :=
  if p.start && !s.busy && decide (p.startLen ≤ s.cwDepth) then
    { s with phase := .hdr, L := p.startLen, cur := 0, mode := 0b0000, rem := 0, pq := [], hr := .none, taken := [] }
  else s

/-- The state POP leaves. -/
def afterPop (p : PortIn) (s : State) : State :=
  if p.outReady then { s with pq := s.pq.tail, taken := s.taken ++ s.pq.head?.toList } else s

theorem execLoad_eq_afterLoad {p : PortIn} (h : p.cwWe = true) (s : State) :
    execLoad p.cwAddr p.cwWdata s = .next (afterLoad p s) := by
  rcases execLoad_cases p.cwAddr p.cwWdata s with ⟨he, hb⟩ | ⟨hb, ha, he⟩
  · rw [he]; rcases hb with hb | hb
    · simp [afterLoad, hb]
    · simp [afterLoad, Nat.not_lt.mpr hb]
  · rw [he]; simp [afterLoad, h, hb, ha]

theorem execStart_eq_afterStart {p : PortIn} (h : p.start = true) (s : State) :
    execStart p.startLen s = .next (afterStart p s) := by
  rcases execStart_cases p.startLen s with ⟨he, hb⟩ | ⟨hb, ha, he⟩
  · rw [he]; rcases hb with hb | hb
    · simp [afterStart, hb]
    · simp [afterStart, Nat.not_le.mpr hb]
  · rw [he]; simp [afterStart, h, hb, ha]

theorem execPop_eq_afterPop {p : PortIn} (h : p.outReady = true) (s : State) : execPop s = .next (afterPop p s) := by
  rcases execPop_cases s with ⟨hq, he⟩ | ⟨b, rest, hq, he⟩
  · rw [he]; simp [afterPop, h, hq]
    cases s; simp_all
  · rw [he]; simp [afterPop, h, hq]

/-- The host commands of an edge always answer (R186: LOAD, then START, then POP). -/
theorem execAll_decodePorts {p : PortIn} (h : p.rst = false) (s : State) :
    execAll (decodePorts p) s = .next (afterPop p (afterStart p (afterLoad p s))) := by
  have hl := execLoad_eq_afterLoad (p := p)
  have hs := execStart_eq_afterStart (p := p)
  have hp := execPop_eq_afterPop (p := p)
  unfold decodePorts
  rw [h]
  cases hw : p.cwWe <;> cases hst : p.start <;> cases ho : p.outReady <;>
    simp [execAll, exec, hl, hs, hp, hw, hst, ho] <;> simp [afterLoad, afterStart, afterPop, hw, hst, ho]

/-- While an enabled decoder holds the machine, no strobe has an effect (R163, R164, R166). -/
theorem afterCommands_of_enabled {p : PortIn} {s : State} (h : s.decoderEnabled = true) :
    afterPop p (afterStart p (afterLoad p s)) = s := by
  obtain ⟨hb, hq⟩ := (State.decoderEnabled_iff s).mp h
  have h1 : afterLoad p s = s := by simp [afterLoad, hb]
  have h2 : afterStart p s = s := by simp [afterStart, hb]
  rw [h1, h2]
  unfold afterPop
  split
  · cases s; simp_all
  · rfl

/-- What a step is: reset, or the host commands of a decoder that takes no step, or a decoder step. -/
theorem step_eq (s : State) :
    step s =
      if s.nextEdge.ports.rst = true then .next s.dropEdge.applyReset
      else if s.decoderEnabled = true then
        (if s.nextEdge.decoderGo = true then decoderStep s.dropEdge else .next s.dropEdge)
      else .next (afterPop s.nextEdge.ports (afterStart s.nextEdge.ports (afterLoad s.nextEdge.ports s.dropEdge))) := by
  unfold step edgeStep
  by_cases hr : s.nextEdge.ports.rst = true
  · simp [hr]
  · have hr' : s.nextEdge.ports.rst = false := by simpa using hr
    rw [if_neg hr, if_neg hr, execAll_decodePorts hr']
    by_cases he : s.decoderEnabled = true
    · have he' : s.dropEdge.decoderEnabled = true := he
      rw [if_pos he, afterCommands_of_enabled he']
      cases hg : s.nextEdge.decoderGo <;> simp [he]
    · rw [if_neg he]
      simp [he]

/-- Every move a decoder step can make, by the rules of the segment loop and the bodies. -/
inductive DecoderMove (s : State) : State → Prop where
  /-- R97 -/
  | exhaust (_ : s.phase = .hdr) (ha : s.avail < 4) : DecoderMove s (s.halt .exhaust)
  /-- R96 -/
  | term (hp : s.phase = .hdr) (ha : 4 ≤ s.avail) (hl : s.FieldLoaded 4) (hv : s.field 4 = 0) :
      DecoderMove s ((s.advance 4).halt .term)
  /-- R98 -/
  | unsup (hp : s.phase = .hdr) (ha : 4 ≤ s.avail) (hl : s.FieldLoaded 4) (h0 : s.field 4 ≠ 0) (h1 : s.field 4 ≠ 1)
      (h2 : s.field 4 ≠ 2) (h4 : s.field 4 ≠ 4) (h8 : s.field 4 ≠ 8) : DecoderMove s ((s.advance 4).halt .unsup)
  /-- R94 -/
  | latch (m : Nibble) (hm : m = 1 ∨ m = 2 ∨ m = 4 ∨ m = 8) (hp : s.phase = .hdr) (ha : 4 ≤ s.avail)
      (hl : s.FieldLoaded 4) (hv : s.field 4 = m.toNat) : DecoderMove s (latchMode m (s.advance 4))
  /-- R95 -/
  | count (m : Nibble) (w : Nat) (p : Phase)
      (hm : (m = 1 ∧ w = 10 ∧ p = .num) ∨ (m = 2 ∧ w = 9 ∧ p = .alnum) ∨ (m = 4 ∧ w = 8 ∧ p = .byte) ∨
        (m = 8 ∧ w = 8 ∧ p = .kanji)) (hp : s.phase = .cnt) (hmode : s.mode = m) (hl : s.FieldLoaded w)
      (hv : s.field w < 2 ^ min w s.avail) :
      DecoderMove s (((s.advance (min w s.avail)).setRem (s.field w)).goto p)
  /-- R99, R111, R127, R141: the count is used up -/
  | bodyEnd (hp : s.phase = .num ∨ s.phase = .alnum ∨ s.phase = .byte) (hr : s.rem.toNat = 0) :
      DecoderMove s (s.goto .hdr)
  /-- R142 -/
  | byteAbandon (hp : s.phase = .byte) (hr : 0 < s.rem.toNat) (ha : s.avail < 8) :
      DecoderMove s ((s.setRem 0).goto .hdr)
  /-- R113, R114, R115, R128, R141: a field of `w` bits read, `bs` emitted, `k` characters used up -/
  | group (w k : Nat) (bs : List Byte) (hl : s.FieldLoaded w) (hk : 0 < k) (hkr : k ≤ s.rem.toNat)
      (hg : (s.phase = .num ∧ w = 10 ∧ k = 3 ∧ bs = tripleBytes (s.field 10)) ∨
        (s.phase = .num ∧ w = 7 ∧ k = 2 ∧ s.rem.toNat = 2 ∧ bs = pairBytes (s.field 7)) ∨
        (s.phase = .num ∧ w = 4 ∧ k = 1 ∧ s.rem.toNat = 1 ∧ bs = [digit (s.field 4)]) ∨
        (s.phase = .alnum ∧ w = 11 ∧ k = 2 ∧ bs = antPairBytes (s.field 11)) ∨
        (s.phase = .alnum ∧ w = 6 ∧ k = 1 ∧ s.rem.toNat = 1 ∧ bs = antBytes (s.field 6)) ∨
        (s.phase = .byte ∧ w = 8 ∧ k = 1 ∧ 8 ≤ s.avail ∧ bs = [BitVec.ofNat 8 (s.field 8)])) :
      DecoderMove s (((s.advance (min w s.avail)).emit bs).setRem (s.rem.toNat - k))
  /-- R151 -/
  | skip (hp : s.phase = .kanji) :
      DecoderMove s (({ s with cur := min (s.cur + 13 * s.rem.toNat) (8 * s.L) }.setRem 0).goto .hdr)

theorem move_of_haltHdr {r : HaltReason} {s t : State} (ha : 4 ≤ s.avail)
    (he : s.decoderEnabled = true) (h : haltSegment r s = .next t) : t = (s.advance 4).halt r := by
  rcases haltSegment_cases h with ⟨h1, _⟩ | ⟨_, _, h1, _⟩ | ⟨_, _, _, h1⟩
  · rw [he] at h1; cases h1
  · omega
  · exact h1

theorem move_of_countedHdr {m : Nibble} {w : Nat} {p : Phase} {body : State → Result} {s t : State} (hp : s.phase = .hdr)
    (ha : 4 ≤ s.avail) (he : s.decoderEnabled = true) (h : countedSegment m w p body s = .next t) :
    t = latchMode m (s.advance 4) := by
  rw [countedSegment_hdr he hp ha] at h
  cases h; rfl

theorem decoderStep_hdr {s t : State} (hp : s.phase = .hdr) (he : s.decoderEnabled = true)
    (h : decoderStep s = .next t) : DecoderMove s t := by
  unfold decoderStep fetch at h
  rw [hp] at h
  simp only at h
  unfold fetchHeader at h
  by_cases ha : s.avail < 4
  · rw [if_pos ha] at h; cases h; exact .exhaust hp ha
  rw [if_neg ha] at h
  have ha : 4 ≤ s.avail := by omega
  cases hrb : readBits 4 s with
  | error f => rw [hrb] at h; cases h
  | ok q =>
    have hl := loaded_of_readBits hrb
    have hlt : s.field 4 < 16 := by
      have := (readBits_ok (readBits_of_loaded hl)).2
      rwa [Nat.min_eq_left ha] at this
    rw [readBits_of_loaded hl] at h
    simp only at h
    have key : ∀ v, v < 16 → v = s.field 4 → exec (decodeMode (BitVec.ofNat 4 v)) s = .next t → DecoderMove s t := by
      intro v hv hvf hx
      interval_cases v
      · exact move_of_haltHdr ha he hx ▸ .term hp ha hl hvf.symm
      · exact move_of_countedHdr hp ha he hx ▸ .latch 1 (by decide) hp ha hl hvf.symm
      · exact move_of_countedHdr hp ha he hx ▸ .latch 2 (by decide) hp ha hl hvf.symm
      · exact move_of_haltHdr ha he hx ▸ .unsup hp ha hl (by omega) (by omega) (by omega) (by omega) (by omega)
      · exact move_of_countedHdr hp ha he hx ▸ .latch 4 (by decide) hp ha hl hvf.symm
      · exact move_of_haltHdr ha he hx ▸ .unsup hp ha hl (by omega) (by omega) (by omega) (by omega) (by omega)
      · exact move_of_haltHdr ha he hx ▸ .unsup hp ha hl (by omega) (by omega) (by omega) (by omega) (by omega)
      · exact move_of_haltHdr ha he hx ▸ .unsup hp ha hl (by omega) (by omega) (by omega) (by omega) (by omega)
      · exact move_of_countedHdr hp ha he hx ▸ .latch 8 (by decide) hp ha hl hvf.symm
      all_goals exact move_of_haltHdr ha he hx ▸ .unsup hp ha hl (by omega) (by omega) (by omega) (by omega) (by omega)
    exact key _ hlt rfl h

theorem decoderStep_cnt {s t : State} (hp : s.phase = .cnt) (he : s.decoderEnabled = true)
    (h : decoderStep s = .next t) : DecoderMove s t := by
  unfold decoderStep fetch at h
  rw [hp] at h
  simp only at h
  have hno : ∀ r, haltSegment r s ≠ .next t := by
    intro r hr
    rcases haltSegment_cases hr with ⟨h1, _⟩ | ⟨_, h1, _⟩ | ⟨_, h1, _⟩
    · rw [he] at h1; cases h1
    · rw [hp] at h1; cases h1
    · rw [hp] at h1; cases h1
  have hyes : ∀ {m : Nibble} {w : Nat} {p : Phase} {body : State → Result}, s.mode = m →
      ((m = 1 ∧ w = 10 ∧ p = .num) ∨ (m = 2 ∧ w = 9 ∧ p = .alnum) ∨ (m = 4 ∧ w = 8 ∧ p = .byte) ∨
        (m = 8 ∧ w = 8 ∧ p = .kanji)) → countedSegment m w p body s = .next t → DecoderMove s t := by
    intro m w p body hm hcase hx
    rw [countedSegment_cnt he hp hm] at hx
    obtain ⟨hl, hv, rfl⟩ := countStep_cases hx
    exact .count m w p hcase hp hm hl hv
  have key : ∀ m : Nibble, s.mode = m → exec (decodeMode m) s = .next t → DecoderMove s t := by
    intro m hm hx
    have hcases : ∀ m : Nibble, m = 1 ∨ m = 2 ∨ m = 4 ∨ m = 8 ∨ m = 0 ∨ (decodeMode m).isUnsup = true := by decide
    rcases hcases m with rfl | rfl | rfl | rfl | rfl | hu
    · exact hyes hm (by decide) hx
    · exact hyes hm (by decide) hx
    · exact hyes hm (by decide) hx
    · exact hyes hm (by decide) hx
    · exact absurd hx (hno .term)
    · have hxu : ∀ i : Instr, i.isUnsup = true → exec i s = haltSegment .unsup s := by
        intro i hi
        cases i <;> first | rfl | cases hi
      rw [hxu _ hu] at hx
      exact absurd hx (hno .unsup)
  exact key _ rfl h

theorem decoderStep_body {s t : State} (hb : s.phase = .num ∨ s.phase = .alnum ∨ s.phase = .byte ∨ s.phase = .kanji)
    (he : s.decoderEnabled = true) (h : decoderStep s = .next t) : DecoderMove s t := by
  unfold decoderStep fetch at h
  rcases hb with hp | hp | hp | hp <;> rw [hp] at h <;> simp only [exec] at h
  · unfold execNum at h
    rw [countedSegment_body he hp (by decide) (by decide)] at h
    rcases numBody_cases h with ⟨hr, rfl⟩ | ⟨hr, hl, rfl⟩ | ⟨hr, hl, rfl⟩ | ⟨hr, hl, rfl⟩
    · exact .bodyEnd (.inl hp) hr
    · exact .group 10 3 _ hl (by omega) hr (.inl ⟨hp, rfl, rfl, rfl⟩)
    · have := DecoderMove.group (s := s) 7 2 _ hl (by omega) (by omega) (.inr (.inl ⟨hp, rfl, rfl, hr, rfl⟩))
      rwa [hr] at this
    · have := DecoderMove.group (s := s) 4 1 _ hl (by omega) (by omega) (.inr (.inr (.inl ⟨hp, rfl, rfl, hr, rfl⟩)))
      rwa [hr] at this
  · unfold execAlnum at h
    rw [countedSegment_body he hp (by decide) (by decide)] at h
    rcases alnumBody_cases h with ⟨hr, rfl⟩ | ⟨hr, hl, rfl⟩ | ⟨hr, hl, rfl⟩
    · exact .bodyEnd (.inr (.inl hp)) hr
    · exact .group 11 2 _ hl (by omega) hr (.inr (.inr (.inr (.inl ⟨hp, rfl, rfl, rfl⟩))))
    · have := DecoderMove.group (s := s) 6 1 _ hl (by omega) (by omega)
        (.inr (.inr (.inr (.inr (.inl ⟨hp, rfl, rfl, hr, rfl⟩)))))
      rwa [hr] at this
  · unfold execByte at h
    rw [countedSegment_body he hp (by decide) (by decide)] at h
    rcases byteBody_cases h with ⟨hr, rfl⟩ | ⟨hr, ha, rfl⟩ | ⟨hr, ha, hl, rfl⟩
    · exact .bodyEnd (.inr (.inr hp)) hr
    · exact .byteAbandon hp hr ha
    · exact .group 8 1 _ hl (by omega) hr (.inr (.inr (.inr (.inr (.inr ⟨hp, rfl, rfl, ha, rfl⟩)))))
  · unfold execKanji at h
    rw [countedSegment_body he hp (by decide) (by decide)] at h
    cases h
    exact .skip hp

/-- A decoder step that answers makes one of the moves (the one inversion lemma of the decoder). -/
theorem decoderStep_move {s t : State} (he : s.decoderEnabled = true) (h : decoderStep s = .next t) :
    DecoderMove s t := by
  obtain ⟨hb, _⟩ := (State.decoderEnabled_iff s).mp he
  cases hp : s.phase with
  | idle => simp [State.busy, hp] at hb
  | done => simp [State.busy, hp] at hb
  | hdr => exact decoderStep_hdr hp he h
  | cnt => exact decoderStep_cnt hp he h
  | num => exact decoderStep_body (.inl hp) he h
  | alnum => exact decoderStep_body (.inr (.inl hp)) he h
  | byte => exact decoderStep_body (.inr (.inr (.inl hp))) he h
  | kanji => exact decoderStep_body (.inr (.inr (.inr hp))) he h

/-- What a step that answers can have done: a reset, a decoder move, a held decoder, or the host's commands. -/
theorem step_cases {s t : State} (h : step s = .next t) :
    (s.nextEdge.ports.rst = true ∧ t = s.dropEdge.applyReset) ∨
      (s.nextEdge.ports.rst = false ∧ s.decoderEnabled = true ∧ s.nextEdge.decoderGo = true ∧
        DecoderMove s.dropEdge t) ∨
      (s.nextEdge.ports.rst = false ∧ s.decoderEnabled = true ∧ s.nextEdge.decoderGo = false ∧ t = s.dropEdge) ∨
      (s.nextEdge.ports.rst = false ∧ s.decoderEnabled = false ∧
        t = afterPop s.nextEdge.ports (afterStart s.nextEdge.ports (afterLoad s.nextEdge.ports s.dropEdge))) := by
  rw [step_eq] at h
  split at h
  · rename_i hr; cases h; exact .inl ⟨hr, rfl⟩
  rename_i hr
  have hr : s.nextEdge.ports.rst = false := by simpa using hr
  split at h
  · rename_i he
    split at h
    · rename_i hg
      exact .inr (.inl ⟨hr, he, hg, decoderStep_move (by simpa using he) h⟩)
    · rename_i hg
      cases h
      exact .inr (.inr (.inl ⟨hr, he, by simpa using hg, rfl⟩))
  · rename_i he
    cases h
    exact .inr (.inr (.inr ⟨hr, by simpa using he, rfl⟩))

end Sys2Proof.Machine
end

