-- ==== Sys2Proof/Laws/Reference.lean ====
section
/-! SUPPORT. The reference function: the range of its values and cursors, and the machine's fields as its reads. -/

namespace Sys2Proof.Machine

theorem refBit_lt_two (buf : List Byte) (i : Nat) : refBit buf i < 2 := Nat.mod_lt _ (by decide)

theorem refBits_lt (buf : List Byte) (k v i : Nat) : refBits buf v i k < (v + 1) * 2 ^ k := by
  induction k generalizing v i with
  | zero => simp [refBits]
  | succ k ih =>
    have hb := refBit_lt_two buf i
    calc refBits buf (2 * v + refBit buf i) (i + 1) k < (2 * v + refBit buf i + 1) * 2 ^ k := ih _ _
      _ ≤ (2 * (v + 1)) * 2 ^ k := Nat.mul_le_mul_right _ (by omega)
      _ = (v + 1) * 2 ^ (k + 1) := by ring

/-- A read's value fits the bits read. -/
theorem refRead_lt (buf : List Byte) (cur n : Nat) : (refRead buf cur n).1 < 2 ^ min n (refAvail buf cur) := by
  simpa [refRead] using refBits_lt buf (min n (refAvail buf cur)) 0 cur

@[simp] theorem refRead_snd (buf : List Byte) (cur n : Nat) :
    (refRead buf cur n).2 = cur + min n (refAvail buf cur) := rfl

/-- A field's value fits the bits read, loaded or not. -/
theorem State.field_lt (s : State) (n : Nat) : s.field n < 2 ^ min n s.avail := by
  simpa [State.field, State.avail, refAvail] using refRead_lt s.buffer s.cur n

/-- A field's value fits its nominal width. -/
theorem State.field_lt_width (s : State) (n : Nat) : s.field n < 2 ^ n :=
  lt_of_lt_of_le (s.field_lt n) (Nat.pow_le_pow_right (by decide) (Nat.min_le_left ..))

/-- No read moves the cursor back. -/
theorem le_refRead (buf : List Byte) (cur n : Nat) : cur ≤ (refRead buf cur n).2 := by simp

theorem le_refNum (buf : List Byte) (c cur : Nat) : cur ≤ (refNum buf c cur).2 := by
  induction c, cur using refNum.induct buf with
  | case1 => simp [refNum]
  | case2 cur => exact le_refRead ..
  | case3 cur => exact le_refRead ..
  | case4 c cur ih => exact (le_refRead ..).trans ih

theorem le_refAlnum (buf : List Byte) (c cur : Nat) : cur ≤ (refAlnum buf c cur).2 := by
  induction c, cur using refAlnum.induct buf with
  | case1 => simp [refAlnum]
  | case2 cur => exact le_refRead ..
  | case3 c cur ih => exact (le_refRead ..).trans ih

theorem le_refByte (buf : List Byte) (c cur : Nat) : cur ≤ (refByte buf c cur).2 := by
  induction c generalizing cur with
  | zero => simp [refByte]
  | succ c ih =>
    simp only [refByte]
    split
    · exact Nat.le_refl _
    · exact (le_refRead ..).trans (ih _)

/-- A state that holds a buffer has that buffer's bytes. -/
theorem State.buffer_of_holds {s : State} {buf : List Byte} (h : s.Holds buf) : s.buffer = buf := by
  apply List.ext_getElem?
  intro i
  by_cases hi : i < buf.length
  · have := h.2 i hi
    simp [State.buffer, List.getElem?_map, List.getElem?_range (h.1 ▸ hi : i < s.L), this, hi]
  · rw [List.getElem?_eq_none (by simp [h.1]; omega), List.getElem?_eq_none (by omega)]

/-- The machine's field is the reference function's read. -/
theorem State.field_of_holds {s : State} {buf : List Byte} (h : s.Holds buf) (n : Nat) :
    s.field n = (refRead buf s.cur n).1 := by
  rw [State.field, State.buffer_of_holds h]

/-- A state that holds a buffer has all of it loaded. -/
theorem State.loaded_of_holds {s : State} {buf : List Byte} (h : s.Holds buf) : s.Loaded := by
  intro a ha
  have ha' : a < buf.length := h.1 ▸ ha
  simp [h.2 a ha', ha']

end Sys2Proof.Machine
end

