-- ==== Sys2Proof/Laws/Schedule.lean ====
section
/-! SUPPORT. The run of a schedule, one edge at a time. -/

namespace Sys2Proof.Machine

@[simp] theorem Schedule.run_zero (σ : Schedule) (s : State) : σ.run 0 s = .next s := rfl

/-- One more edge of a run. -/
theorem Schedule.run_succ_of_run {σ : Schedule} {k : Nat} {s t : State} (h : σ.run k s = .next t) :
    σ.run (k + 1) s = step { t with inputs := [σ k] } := by
  simp [Schedule.run, h]

/-- A run that has come to `k + 1` edges came to `k` before. -/
theorem Schedule.run_of_run_succ {σ : Schedule} {k : Nat} {s t : State} (h : σ.run (k + 1) s = .next t) :
    ∃ u, σ.run k s = .next u ∧ step { u with inputs := [σ k] } = .next t := by
  simp only [Schedule.run] at h
  split at h
  · exact ⟨_, ‹_›, h⟩
  · cases h
  · cases h

end Sys2Proof.Machine
end

