-- ==== Sys2Proof/Machine/Listing.lean ====
section
/-! DEFINITION. The listing of a decode (30_encoding.md R84): one line per segment as the decoder reads it, with the mode
name, the count and the fields read. It is notation and no part of the machine (decision D22 of the spec). -/

namespace Sys2Proof.Machine

/-- A field as it was read: its nominal width, the bits actually read and their value. -/
structure FieldRead where
  width : Nat
  bits : Nat
  value : Nat
  deriving DecidableEq, Repr

/-- One line of the listing. -/
structure ListLine where
  name : String
  count : Option FieldRead
  fields : List FieldRead
  abandoned : Bool
  deriving DecidableEq, Repr

/-- The field of width `w` at `cur`. -/
def fieldAt (buf : List Byte) (cur w : Nat) : FieldRead :=
  { width := w, bits := min w (refAvail buf cur), value := (refRead buf cur w).1 }

/-- The field, written `FIELD k, v`, with `; short` for `k < n` (R84). -/
def FieldRead.render (f : FieldRead) : String :=
  "FIELD " ++ toString f.bits ++ ", " ++ toString f.value ++ (if f.bits < f.width then " ; short" else "")

/-- The fields of a Numeric body. -/
def numFields (buf : List Byte) : Nat → Nat → List FieldRead
  | 0, _ => []
  | 1, cur => [fieldAt buf cur wNum1]
  | 2, cur => [fieldAt buf cur wNum2]
  | c + 3, cur => fieldAt buf cur wNum3 :: numFields buf c (refRead buf cur wNum3).2

/-- The fields of an Alphanumeric body. -/
def alnumFields (buf : List Byte) : Nat → Nat → List FieldRead
  | 0, _ => []
  | 1, cur => [fieldAt buf cur wAn1]
  | c + 2, cur => fieldAt buf cur wAn2 :: alnumFields buf c (refRead buf cur wAn2).2

/-- The bytes of a Byte body, and whether it stopped early (R142). -/
def byteFields (buf : List Byte) : Nat → Nat → List FieldRead × Bool
  | 0, _ => ([], false)
  | c + 1, cur =>
    if refAvail buf cur < wByte then ([], true)
    else
      (fieldAt buf cur wByte :: (byteFields buf c (refRead buf cur wByte).2).1,
        (byteFields buf c (refRead buf cur wByte).2).2)

/-- The listing from a segment boundary at `cur`, for at most `fuel` segments. -/
def listFrom (buf : List Byte) : Nat → Nat → List ListLine
  | 0, _ => []
  | fuel + 1, cur =>
    if refAvail buf cur < wMode then []
    else
      let at4 := (refRead buf cur wMode).2
      match (refRead buf cur wMode).1 with
      | 0b0000 => [{ name := "TERM", count := none, fields := [], abandoned := false }]
      | 0b0001 =>
        let c := refRead buf at4 wCcNum
        { name := "NUM", count := some (fieldAt buf at4 wCcNum), fields := numFields buf c.1 c.2, abandoned := false }
          :: listFrom buf fuel (refNum buf c.1 c.2).2
      | 0b0010 =>
        let c := refRead buf at4 wCcAlnum
        { name := "ALNUM", count := some (fieldAt buf at4 wCcAlnum), fields := alnumFields buf c.1 c.2, abandoned := false }
          :: listFrom buf fuel (refAlnum buf c.1 c.2).2
      | 0b0100 =>
        let c := refRead buf at4 wCcByte
        { name := "BYTE", count := some (fieldAt buf at4 wCcByte), fields := (byteFields buf c.1 c.2).1,
          abandoned := (byteFields buf c.1 c.2).2 }
          :: listFrom buf fuel (refByte buf c.1 c.2).2
      | 0b1000 =>
        let c := refRead buf at4 wCcKanji
        { name := "KANJI", count := some (fieldAt buf at4 wCcKanji), fields := [], abandoned := false }
          :: listFrom buf fuel (refKanji buf c.1 c.2).2
      | _ => [{ name := "UNSUP", count := none, fields := [], abandoned := false }]

/-- The listing of the decode of a buffer (R84). -/
def listing (buf : List Byte) : List ListLine := listFrom buf (2 * buf.length + 1) 0

/-- A line as text: the mode name, the count, the fields, and `; abandoned` for a Byte segment that stops early. -/
def ListLine.render (l : ListLine) : String :=
  l.name ++ (match l.count with
    | some c => "; " ++ c.render
    | none => "")
    ++ String.join (l.fields.map fun f => "; " ++ f.render)
    ++ (if l.abandoned then " ; abandoned" else "")

end Sys2Proof.Machine
end

