-- ==== Sys2Proof/Tests/Slice0.lean ====
section
/-! SUPPORT. The model's own tests: one step each, with expected values from the spec's rules and vectors
(spec/95_test_vectors.md), and for every statement with hypotheses a state that meets them. -/

namespace Sys2Proof.Tests

open Sys2Proof.Machine

/-! ## Helpers -/

/-- Bytes as a loaded RAM from address 0. -/
def ram (bs : List Byte) : Memory := Memory.writeFrom [] 0 bs

/-- A state in a given phase of a decode of the whole of `bs`, on a buffer of 8 bytes. -/
def at' (p : Phase) (bs : List Byte) (cur : Nat) (m : Nibble) (r : BitVec 10) (q : List Byte) : State :=
  { State.resetWith 8 with phase := p, L := bs.length, cur := cur, mode := m, rem := r, pq := q, cw := ram bs }

/-- The same with one edge's inputs waiting. -/
def withEdge (s : State) (e : Edge) : State := { s with inputs := [e] }

/-- A quiet edge with other ports. -/
def edgeOf (p : PortIn) : Edge := { ports := p, decoderGo := true }

/-- The next state, if there is one. -/
def nextOf (r : Result) : Option State :=
  match r with
  | .next s => some s
  | .fault _ => none
  | .refused _ => none

/-- The fault, if there is one. -/
def faultOf (r : Result) : Option Fault :=
  match r with
  | .next _ => none
  | .fault f => some f
  | .refused _ => none

/-- What a test looks at: phase, cursor, remaining count, queue. -/
def look (r : Result) : Option (Phase × Nat × Nat × List Byte) :=
  (nextOf r).map fun s => (s.phase, s.cur, s.rem.toNat, s.pq)

theorem inv_of (s : State) (h : s.invCheck = true) : s.Inv := (State.inv_iff_check s).mpr h

/-! ## Well-formedness: an ill-formed term for each check -/

theorem test_load_address_too_wide : (Instr.load 8 0).wf 8 = false ∧ (Instr.load 7 0).wf 8 = true := by decide

theorem test_start_length_too_wide : (Instr.start 16).wf 8 = false ∧ (Instr.start 15).wf 8 = true := by decide

theorem test_port_address_too_wide : ({ PortIn.quiet with cwAddr := 2 } : PortIn).wf 2 = false := by decide

theorem test_port_length_too_wide : ({ PortIn.quiet with startLen := 4 } : PortIn).wf 2 = false := by decide

theorem test_field_too_large : (Stmt.field 4 16).wf = false ∧ (Stmt.field 4 15).wf = true := by decide

theorem test_num_string_bad : pseudoWf (.num [0x3A]) = false ∧ pseudoWf (.num (List.replicate 3 0x39)) = true := by decide

theorem test_alnum_string_bad : pseudoWf (.alnum [0x61]) = false ∧ pseudoWf (.alnum [0x3A]) = true := by decide

theorem test_byte_string_too_long (bs : List Byte) (h : bs.length = 256) : pseudoWf (.byte bs) = false := by
  simp [pseudoWf, h]

theorem test_num_string_too_long (bs : List Byte) (h : bs.length = 1024) : pseudoWf (.num bs) = false := by
  simp [pseudoWf, h]

theorem test_alnum_string_too_long (bs : List Byte) (h : bs.length = 512) : pseudoWf (.alnum bs) = false := by
  simp [pseudoWf, h]

theorem test_kanji_list_too_long (vs : List (BitVec 13)) (h : vs.length = 256) : pseudoWf (.kanji vs) = false := by
  simp [pseudoWf, h]

theorem test_kanji_count_too_large : pseudoWf (.kanjiZeros 256) = false ∧ pseudoWf (.kanjiZeros 255) = true := by decide

theorem test_bytes_off_boundary : assemble [.base (.mode 4), .base (.bytes [1])] = none := by decide

/-! ## Decoding: words written out from R72, R73 to R78 and the host commands -/

/-- Each mode indicator in the high nibble of its first byte, as R57 orders the bits. -/
theorem test_decode_supported :
    decodeBytes [0b00000000] = .ok .term ∧ decodeBytes [0b00010000, 0b00100100] = .ok .num ∧
      decodeBytes [0b00100000, 0b00011001] = .ok .alnum ∧ decodeBytes [0b01000000, 0b01010100] = .ok .byte ∧
      decodeBytes [0b10000000, 0b00010000] = .ok .kanji := ⟨rfl, rfl, rfl, rfl, rfl⟩

/-- The eleven unsupported values (vector L1-7: 30 50 60 70 90 A0 B0 C0 D0 E0 F0). -/
theorem test_decode_unsupported :
    decodeBytes [0x30] = .ok .unsup0011 ∧ decodeBytes [0x50] = .ok .unsup0101 ∧ decodeBytes [0x60] = .ok .unsup0110 ∧
      decodeBytes [0x70] = .ok .unsup0111 ∧ decodeBytes [0x90] = .ok .unsup1001 ∧ decodeBytes [0xA0] = .ok .unsup1010 ∧
      decodeBytes [0xB0] = .ok .unsup1011 ∧ decodeBytes [0xC0] = .ok .unsup1100 ∧ decodeBytes [0xD0] = .ok .unsup1101 ∧
      decodeBytes [0xE0] = .ok .unsup1110 ∧ decodeBytes [0xF0] = .ok .unsup1111 :=
  ⟨rfl, rfl, rfl, rfl, rfl, rfl, rfl, rfl, rfl, rfl, rfl⟩

theorem test_decode_host_commands :
    decodePorts { PortIn.quiet with cwWe := true, cwAddr := 0, cwWdata := 0x40 } = [.load 0 0x40] ∧
      decodePorts { PortIn.quiet with start := true, startLen := 1 } = [.start 1] ∧
      decodePorts { PortIn.quiet with outReady := true } = [.pop] := by decide

/-- Table words: the mode in bits 3..0. -/
theorem test_decode_table_words :
    decodeTableWord 8 0x1 = some .num ∧ decodeTableWord 4 0x8 = some .kanji ∧ decodeTableWord 8 0xD = some .unsup1101 ∧
      decodeTableWord 0 0 = none := by decide

theorem test_decode_rejects_nothing_left : decodeBytes [] = .error (.noModeIndicator 0) := rfl

/-! ## One step per instruction, expected values from the spec -/

/-- R96: CW = [00]. -/
theorem test_term_halts :
    (nextOf (step (at' .hdr [0x00] 0 0 0 []))).map (fun t => (t.hr, t.phase, t.cur, t.done)) =
      some (.term, .done, 4, true) := by decide

/-- R98: CW = [30]. -/
theorem test_unsup_halts :
    (nextOf (step (at' .hdr [0x30] 0 0 0 []))).map (fun t => (t.hr, t.phase, t.cur, t.mode)) =
      some (.unsup, .done, 4, 0) := by decide

/-- R97: `NUM "42"`, 3 bits left (CW = [10 09 50], cur = 21). -/
theorem test_exhaust_halts :
    (nextOf (step (at' .hdr [0x10, 0x09, 0x50] 21 1 0 []))).map (fun t => (t.hr, t.phase, t.cur)) =
      some (.exhaust, .done, 21) := by decide

/-- Program P1, steps 1 and 2: HDR 0 to CNT 4, CNT 4 to NUM 14 with rem 4. -/
theorem test_num_header_and_count :
    look (step (at' .hdr [0x10, 0x10, 0xCA] 0 0 0 [])) = some (.cnt, 4, 0, []) ∧
      look (step (at' .cnt [0x10, 0x10, 0xCA] 4 1 0 [])) = some (.num, 14, 4, []) := by decide

/-- L1-4: the triple 123 of CW = [10 24 7B 72 31 50] at bit 14; L2-N6: the pair 127 gives 3C 37; L2-N9: the single 15 gives
3F; L2-R2: the triple cut to 2 bits `11` gives 30 30 33. -/
theorem test_num_groups :
    look (step (at' .num [0x10, 0x24, 0x7B, 0x72, 0x31, 0x50] 14 1 9 [])) = some (.num, 24, 6, [0x31, 0x32, 0x33]) ∧
      look (step (at' .num [0x10, 0x0B, 0xF8, 0x00] 14 1 2 [])) = some (.num, 21, 0, [0x3C, 0x37]) ∧
      look (step (at' .num [0x10, 0x07, 0xC0] 14 1 1 [])) = some (.num, 18, 0, [0x3F]) ∧
      look (step (at' .num [0x10, 0x0F] 14 1 3 [])) = some (.num, 16, 0, [0x30, 0x30, 0x33]) :=
  ⟨by decide, by decide, by decide, by decide⟩

/-- L2-A3: the pair 2025 gives 30 alone (index 45 dropped); L1-5: the pair 461 gives "AB". -/
theorem test_alnum_pair :
    look (step (at' .alnum [0x20, 0x17, 0xE9, 0x00] 13 2 2 [])) = some (.alnum, 24, 0, [0x30]) ∧
      look (step (at' .alnum [0x20, 0x19, 0xCD, 0x04, 0x00] 13 2 3 [])) = some (.alnum, 24, 1, [0x41, 0x42]) := by decide

/-- L2-A5, L2-A7: the single 44 gives 3A, the single 63 nothing. -/
theorem test_alnum_single :
    look (step (at' .alnum [0x20, 0x0D, 0x80] 13 2 1 [])) = some (.alnum, 19, 0, [0x3A]) ∧
      look (step (at' .alnum [0x20, 0x0F, 0xE0] 13 2 1 [])) = some (.alnum, 19, 0, []) := by decide

/-- L1-3: the first byte of HELLO at bit 12. -/
theorem test_byte_emits :
    look (step (at' .byte [0x40, 0x54, 0x84, 0x54, 0xC4, 0xC4, 0xF0] 12 4 5 [])) =
      some (.byte, 20, 4, [0x48]) := by decide

/-- L1-6: abandoned with 4 bits left. -/
theorem test_byte_abandons :
    look (step (at' .byte [0x40, 0xA4, 0x84, 0x54, 0xC0] 36 4 7 [])) = some (.hdr, 36, 0, []) := by decide

/-- L1-8: after the skip cur = 25. -/
theorem test_kanji_skips :
    look (step (at' .kanji [0x80, 0x10, 0x00, 0x20, 0x0A, 0x08, 0x00] 12 8 1 [])) = some (.hdr, 25, 0, []) := by decide

/-- L2-K2: clamped from 2612 to 24, with nothing loaded. -/
theorem test_kanji_clamps :
    look (step { at' .kanji [] 12 8 200 [] with L := 3 }) = some (.hdr, 24, 0, []) := by decide

/-- R161's example. -/
theorem test_load_writes :
    (nextOf (exec (.load 0 0x40) (State.resetWith 8))).map (fun t => Memory.read t.cw 0) = some (some 0x40) := by decide

/-- L2-H5: a LOAD while busy is ignored. -/
theorem test_load_ignored_while_busy :
    (nextOf (exec (.load 0 0x00) (at' .hdr [0x40] 0 0 0 []))).map (fun t => Memory.read t.cw 0) =
      some (some 0x40) := by decide

/-- R162's example. -/
theorem test_start_begins :
    (nextOf (exec (.start 1) { State.resetWith 8 with cw := ram [0x00] })).map
      (fun t => (t.busy, t.L, t.cur, t.haltReason)) = some (true, 1, 0, 0b00) := by decide

/-- L2-H9: a START longer than the buffer is ignored. -/
theorem test_start_too_long_ignored :
    (nextOf (exec (.start 9) (State.resetWith 8))).map (fun t => t.busy) = some false := by decide

/-- R166's example. -/
theorem test_pop_takes_front :
    (nextOf (exec .pop (at' .byte [] 0 4 0 [0x48, 0x45]))).map (fun t => (t.pq, t.taken)) =
      some ([0x45], [0x48]) := by decide

/-- L2-H4: LOAD and START at one edge. -/
theorem test_load_and_start_same_edge :
    (nextOf (step (withEdge { State.resetWith 8 with cw := ram [0x00] }
      (edgeOf { PortIn.quiet with cwWe := true, cwWdata := 0x30, start := true, startLen := 1 })))).map
      (fun t => (t.phase, Memory.read t.cw 0)) = some (.hdr, some 0x30) := by decide

/-- L2-H2: the decoder holds while its byte waits. -/
theorem test_decoder_holds :
    look (step (at' .byte [0x40, 0x14, 0x10] 20 4 0 [0x41])) = some (.byte, 20, 0, [0x41]) := by decide

/-- L2-H8: the model's fault. -/
theorem test_uninit_read : faultOf (step { at' .hdr [] 0 0 0 [] with L := 1 }) = some (.uninitRead 0) := by decide

/-- L2-H7: reset during a decode leaves CW. -/
theorem test_reset_edge :
    (nextOf (step (withEdge (at' .byte [0x40] 0 4 3 [0x41]) (edgeOf { PortIn.quiet with rst := true, start := true })))).map
      (fun t => (t.phase, t.pq, t.haltReason, Memory.read t.cw 0)) = some (.idle, [], 0b00, some 0x40) := by decide

/-- With no inputs the reset state stays (R195). -/
theorem test_reset_idles : step State.reset = .next State.reset := rfl

/-- A table word runs as the first instruction after reset. -/
theorem test_fetch_word_runs :
    look (step (State.reset.withFetchWord 8 0x1)) = some (.cnt, 4, 0, []) ∧
      look (step (State.reset.withFetchWord 8 0xF)) = some (.done, 4, 0, []) := by decide

/-- The spec's worked streams (R120, R132, R145), assembled, and the listing of a short read (R84). -/
theorem test_assemble_num :
    assemble [.pseudo (.num [0x34, 0x32]), .pseudo .term] = some [0x10, 0x09, 0x50, 0x00] := by decide

theorem test_reference_short_read : refDecode [0x10, 0x0F] = ([0x30, 0x30, 0x33], .exhaust) := by decide

theorem test_listing_short_read :
    (listing [0x10, 0x0F]).map (fun l => (l.name, l.fields)) = [("NUM", [{ width := 10, bits := 2, value := 3 }])] := by
  decide

/-! ## Witnesses: for each statement with hypotheses, states and operands that meet them -/

/-- A loop head with TERM waiting, nothing strobed. -/
def sHdr : State := at' .hdr [0x00, 0x10] 0 0 0 []

/-- A body state with output waiting. -/
def sWaiting : State := at' .byte [0x40, 0x14, 0x10] 20 4 0 [0x41]

/-- A loop head on a byte that no LOAD wrote. -/
def sUnloaded : State := { at' .hdr [] 0 0 0 [] with L := 1 }

/-- A finished decode. -/
def sDone : State := { at' .done [0x00] 4 0 0 [] with hr := .term }

theorem witness_step_keeps_invariant : sHdr.Inv ∧ ∃ t, step sHdr = .next t := ⟨inv_of _ (by decide), _, rfl⟩

theorem witness_reset_edge :
    (withEdge sHdr (edgeOf { PortIn.quiet with rst := true })).nextEdge.ports.rst = true ∧
      sHdr.busy = true ∧ sHdr.nextEdge.ports.rst = false ∧ ∃ t, step sHdr = .next t :=
  ⟨by decide, by decide, by decide, _, rfl⟩

theorem witness_status_ports : sWaiting.Inv ∧ sWaiting.pq ≠ [] := ⟨inv_of _ (by decide), by decide⟩

theorem witness_output_ports : sWaiting.pq = [0x41] ∧ sHdr.outValid = false := by decide

/-- START, TERM, UNSUP and EXHAUST each change `hr`. -/
theorem witness_halt_reason_writers :
    (withEdge sDone (edgeOf { PortIn.quiet with start := true, startLen := 8 })).Inv ∧
      (nextOf (step (withEdge sDone (edgeOf { PortIn.quiet with start := true, startLen := 8 })))).map (·.hr) = some .none ∧
      sHdr.Inv ∧ (nextOf (step sHdr)).map (·.hr) = some .term ∧
      (at' .hdr [0xF0] 0 0 0 []).Inv ∧ (nextOf (step (at' .hdr [0xF0] 0 0 0 []))).map (·.hr) = some .unsup ∧
      (at' .hdr [0x00] 5 0 0 []).Inv ∧ (nextOf (step (at' .hdr [0x00] 5 0 0 []))).map (·.hr) = some .exhaust :=
  ⟨inv_of _ (by decide), by decide, inv_of _ (by decide), by decide, inv_of _ (by decide), by decide,
    inv_of _ (by decide), by decide⟩

theorem witness_output_stability :
    (sWaiting.Inv ∧ sWaiting.outValid = true ∧ sWaiting.nextEdge.ports.outReady = false ∧
      sWaiting.nextEdge.ports.rst = false ∧ ∃ t, step sWaiting = .next t) ∧ sDone.Inv ∧ sDone.phase = .done :=
  ⟨⟨inv_of _ (by decide), by decide, by decide, by decide, _, rfl⟩, inv_of _ (by decide), rfl⟩

/-- The whole buffer used, and the largest Kanji count. -/
theorem witness_widths :
    (at' .hdr [0, 0, 0, 0, 0, 0, 0, 0] 64 0 0 []).Inv ∧ 7 < (at' .hdr [] 0 0 0 []).cwDepth ∧
      (at' .kanji [0] 8 8 255 []).Inv ∧ (at' .kanji [0] 8 8 255 []).phase = .kanji :=
  ⟨inv_of _ (by decide), by decide, inv_of _ (by decide), rfl⟩

/-- A field over three bytes, and its first and last bit. -/
theorem witness_read_bits :
    (at' .alnum [0x20, 0x19, 0xCD, 0x04] 13 2 3 []).FieldLoaded 11 ∧
      0 < min 11 (at' .alnum [0x20, 0x19, 0xCD, 0x04] 13 2 3 []).avail ∧
      10 < min 11 (at' .alnum [0x20, 0x19, 0xCD, 0x04] 13 2 3 []).avail := by decide

/-- One bit left of ten, and none. -/
theorem witness_short_read :
    ((at' .num [0x10, 0x0F] 15 1 3 []).cur ≤ 8 * (at' .num [0x10, 0x0F] 15 1 3 []).L ∧
      (at' .num [0x10, 0x0F] 15 1 3 []).avail = 1 ∧ (at' .num [0x10, 0x0F] 15 1 3 []).FieldLoaded 10) ∧
    ((at' .num [0x10, 0x0F] 16 1 3 []).cur ≤ 8 * (at' .num [0x10, 0x0F] 16 1 3 []).L ∧
      (at' .num [0x10, 0x0F] 16 1 3 []).avail = 0 ∧ (at' .num [0x10, 0x0F] 16 1 3 []).FieldLoaded 10) := by decide

theorem witness_uninit_read :
    (sHdr.Inv ∧ sHdr.decoderEnabled = true ∧ sHdr.nextEdge.decoderGo = true ∧ sHdr.nextEdge.ports.rst = false ∧
      sHdr.FieldLoaded sHdr.readWidth ∧ sHdr.Loaded) ∧
    (sUnloaded.Inv ∧ sUnloaded.decoderEnabled = true ∧ sUnloaded.nextEdge.decoderGo = true ∧
      sUnloaded.nextEdge.ports.rst = false ∧ ¬ sUnloaded.FieldLoaded sUnloaded.readWidth) :=
  ⟨⟨inv_of _ (by decide), by decide, by decide, by decide, by decide, by decide⟩,
    inv_of _ (by decide), by decide, by decide, by decide, by decide⟩

theorem witness_no_other_stop : sUnloaded.Inv ∧ step sUnloaded = .fault (.uninitRead 0) := ⟨inv_of _ (by decide), rfl⟩

theorem witness_loaded_decode : sHdr.Inv ∧ sHdr.Loaded ∧ sHdr.busy = true := ⟨inv_of _ (by decide), by decide, by decide⟩

theorem witness_buffer_immutable :
    (sHdr.busy = true ∧ ∃ t, step sHdr = .next t) ∧ Instr.isSegment .term = true ∧ ∃ t, exec .term sHdr = .next t :=
  ⟨⟨by decide, _, rfl⟩, by decide, _, rfl⟩

/-- A decode of one byte on a RAM whose second byte differs; and one that faults. -/
theorem witness_bytes_above :
    ({ sHdr with L := 1 }.Inv ∧ { sHdr with L := 1 }.busy = true ∧
      (∀ a, a < 1 → Memory.read (ram [0x00, 0xFF]) a = Memory.read sHdr.cw a) ∧ ∃ t, step { sHdr with L := 1 } = .next t) ∧
    sUnloaded.Inv ∧ ∃ f, step sUnloaded = .fault f :=
  ⟨⟨inv_of _ (by decide), by decide, by decide, _, rfl⟩, inv_of _ (by decide), _, rfl⟩

/-- The cursor falls at a START after a finished decode. -/
theorem witness_cursor :
    (withEdge sDone (edgeOf { PortIn.quiet with start := true, startLen := 1 })).Inv ∧
      (nextOf (step (withEdge sDone (edgeOf { PortIn.quiet with start := true, startLen := 1 })))).map (·.cur) = some 0 ∧
      sDone.cur = 4 := ⟨inv_of _ (by decide), by decide, by decide⟩

/-- `L`, `mode` and a byte of CW (the last address) each change. -/
theorem witness_register_writers :
    ((withEdge sDone (edgeOf { PortIn.quiet with start := true, startLen := 8 })).Inv ∧
      (nextOf (step (withEdge sDone (edgeOf { PortIn.quiet with start := true, startLen := 8 })))).map (·.L) = some 8) ∧
    ((at' .hdr [0x80] 0 0 0 []).Inv ∧ (nextOf (step (at' .hdr [0x80] 0 0 0 []))).map (·.mode) = some 0b1000) ∧
    ((withEdge sDone (edgeOf { PortIn.quiet with cwWe := true, cwAddr := 7, cwWdata := 1 })).Inv ∧
      (nextOf (step (withEdge sDone (edgeOf { PortIn.quiet with cwWe := true, cwAddr := 7, cwWdata := 1 })))).map
        (fun t => Memory.read t.cw 7) = some (some 1)) :=
  ⟨⟨inv_of _ (by decide), by decide⟩, ⟨inv_of _ (by decide), by decide⟩, inv_of _ (by decide), by decide⟩

/-- The common hypotheses of a decoder step, in each of the six phases. -/
theorem witness_step_runs_segment :
    (sHdr.decoderEnabled = true ∧ sHdr.nextEdge.decoderGo = true ∧ sHdr.nextEdge.ports.rst = false ∧ 4 ≤ sHdr.avail ∧
      sHdr.FieldLoaded 4) ∧
    (∀ p ∈ [Phase.hdr, .cnt, .num, .alnum, .byte, .kanji], (at' p [0x10] 4 1 0 []).decoderEnabled = true) ∧
    (at' .hdr [0x10] 4 1 0 []).avail = 4 ∧ (at' .hdr [0x10] 4 1 0 []).FieldLoaded 4 := by decide

theorem witness_step_runs_commands :
    sDone.decoderEnabled = false ∧ sDone.nextEdge.ports.rst = false ∧
      encode .pop = .ports (withEdge sDone (edgeOf { PortIn.quiet with outReady := true })).nextEdge.ports := by decide

/-- The smallest buffer. -/
theorem witness_placed_word : 1 ≤ (State.resetWith 1).cwDepth ∧ 1 ≤ State.reset.cwDepth := by decide

theorem witness_port_vectors :
    ({ PortIn.quiet with cwWe := true, cwAddr := 7, start := true, startLen := 8, outReady := true } : PortIn).wf 8 = true ∧
      PortIn.quiet.rst = false := by decide

/-- Exactly four bits left. -/
theorem witness_header :
    (at' .hdr [0x10] 4 1 0 []).phase = .hdr ∧ (at' .hdr [0x10] 4 1 0 []).pq = [] ∧
      4 ≤ (at' .hdr [0x10] 4 1 0 []).avail := by decide

theorem witness_header_step :
    (at' .hdr [0x81] 0 1 0 []).nextEdge.decoderGo = true ∧ (at' .hdr [0x81] 0 1 0 []).nextEdge.ports.rst = false ∧
      (at' .hdr [0x81] 0 1 0 []).FieldLoaded 4 ∧ (at' .hdr [0x81] 0 1 0 []).field 4 = (0b1000 : Nibble).toNat ∧
      (at' .hdr [0x81] 4 1 0 []).avail = 4 ∧ (at' .hdr [0x81] 4 1 0 []).field 4 = (0b0001 : Nibble).toNat := by decide

theorem witness_term :
    sHdr.phase = .hdr ∧ sHdr.pq = [] ∧ 4 ≤ sHdr.avail ∧ sHdr.nextEdge.decoderGo = true ∧ sHdr.nextEdge.ports.rst = false ∧
      sHdr.FieldLoaded 4 ∧ sHdr.field 4 = 0b0000 := by decide

theorem witness_unsup :
    Instr.isUnsup .unsup0011 = true ∧ Instr.isUnsup .unsup1111 = true ∧ sHdr.phase = .hdr ∧ sHdr.pq = [] ∧
      4 ≤ sHdr.avail ∧ (at' .hdr [0x3F] 0 0 0 []).FieldLoaded 4 ∧ (at' .hdr [0x3F] 0 0 0 []).field 4 = 0b0011 ∧
      (at' .hdr [0x9F] 0 0 0 []).field 4 = 0b1001 ∧ (at' .hdr [0x9F] 4 0 0 []).field 4 = 0b1111 := by decide

/-- Three bits left, and an empty buffer. -/
theorem witness_exhaust :
    ((at' .hdr [0x10] 5 1 0 []).phase = .hdr ∧ (at' .hdr [0x10] 5 1 0 []).pq = [] ∧
      (at' .hdr [0x10] 5 1 0 []).avail = 3 ∧ (at' .hdr [0x10] 5 1 0 []).nextEdge.decoderGo = true ∧
      (at' .hdr [0x10] 5 1 0 []).nextEdge.ports.rst = false) ∧
    (at' .hdr [] 0 0 0 []).avail = 0 ∧ Instr.isSegment .num = true := by decide

/-- Each of the four modes, the count whole and cut to nothing. -/
theorem witness_count_step :
    ((at' .cnt [0x10, 0x24] 4 1 0 []).pq = [] ∧ (at' .cnt [0x10, 0x24] 4 1 0 []).FieldLoaded 10) ∧
    ((at' .cnt [0x20, 0x19] 4 2 0 []).mode = 0b0010 ∧ (at' .cnt [0x20, 0x19] 4 2 0 []).FieldLoaded 9) ∧
    ((at' .cnt [0x40, 0x54] 4 4 0 []).mode = 0b0100 ∧ (at' .cnt [0x40, 0x54] 4 4 0 []).FieldLoaded 8) ∧
    ((at' .cnt [0x80, 0x10] 4 8 0 []).mode = 0b1000 ∧ (at' .cnt [0x80, 0x10] 4 8 0 []).FieldLoaded 8) ∧
    (at' .cnt [0x40] 8 4 0 []).FieldLoaded 8 := by decide

theorem witness_holds :
    Instr.isSegment .kanji = true ∧ sWaiting.decoderEnabled = false ∧ sDone.decoderEnabled = false := by decide

theorem witness_halt_terminal :
    (sHdr.Inv ∧ sHdr.phase ≠ .done ∧ (nextOf (step sHdr)).map (·.phase) = some .done) ∧
    (sDone.phase = .done ∧ (nextOf (step (withEdge sDone (edgeOf { PortIn.quiet with start := true })))).map (·.phase) =
      some .hdr) := ⟨⟨inv_of _ (by decide), by decide, by decide⟩, by decide⟩

theorem witness_idle_done_hold :
    ((State.resetWith 8).phase = .idle ∧ (State.resetWith 8).nextEdge.ports.rst = false ∧
      decodePorts (State.resetWith 8).nextEdge.ports = []) ∧ sDone.phase = .done := by decide

/-- The four forms: count 0, 3 (the least of its range), 2, 1. -/
theorem witness_numeric_body :
    ((at' .num [0x10, 0x24] 14 1 0 []).pq = [] ∧ (at' .num [0x10, 0x24] 14 1 0 []).rem.toNat = 0) ∧
    (3 ≤ (at' .num [0x10, 0x0F, 0xFF] 14 1 3 []).rem.toNat ∧ (at' .num [0x10, 0x0F, 0xFF] 14 1 3 []).FieldLoaded 10) ∧
    ((at' .num [0x10, 0x0B, 0xF8] 14 1 2 []).rem.toNat = 2 ∧ (at' .num [0x10, 0x0B, 0xF8] 14 1 2 []).FieldLoaded 7) ∧
    ((at' .num [0x10, 0x07, 0xC0] 14 1 1 []).rem.toNat = 1 ∧ (at' .num [0x10, 0x07, 0xC0] 14 1 1 []).FieldLoaded 4) := by
  decide

/-- The values where R117's clauses begin and end. -/
theorem witness_numeric_range :
    digit 0 = 0x30 ∧ tripleBytes 1000 = [0x3A, 0x30, 0x30] ∧ tripleBytes 1023 = [0x3A, 0x32, 0x33] ∧ pairBytes 100 = [0x3A, 0x30] ∧
      pairBytes 109 = [0x3A, 0x39] ∧ pairBytes 110 = [0x3B, 0x30] ∧ pairBytes 119 = [0x3B, 0x39] ∧
      pairBytes 120 = [0x3C, 0x30] ∧ pairBytes 127 = [0x3C, 0x37] ∧ digit 10 = 0x3A ∧ digit 15 = 0x3F := by decide

theorem witness_cut_bodies : 8 * ([0x1A] : List Byte).length ≤ 8 := by decide

/-- The three forms: count 0, 2, 1. -/
theorem witness_alnum_body :
    ((at' .alnum [0x20, 0x17] 13 2 0 []).pq = [] ∧ (at' .alnum [0x20, 0x17] 13 2 0 []).rem.toNat = 0) ∧
    (2 ≤ (at' .alnum [0x20, 0x17, 0xE9] 13 2 2 []).rem.toNat ∧ (at' .alnum [0x20, 0x17, 0xE9] 13 2 2 []).FieldLoaded 11) ∧
    ((at' .alnum [0x20, 0x0D, 0xA0] 13 2 1 []).rem.toNat = 1 ∧ (at' .alnum [0x20, 0x0D, 0xA0] 13 2 1 []).FieldLoaded 6) := by
  decide

/-- The values where R129's clauses meet (vectors L2-A2, L2-A3, L2-A4, L2-A5, L2-A6, L2-A7). -/
theorem witness_alnum_range :
    antPairBytes 2024 = [0x3A, 0x3A] ∧ antPairBytes 2025 = [0x30] ∧ antPairBytes 2047 = [0x4D] ∧ antBytes 44 = [0x3A] ∧
      antBytes 45 = [] ∧ antBytes 63 = [] := by decide

/-- The three forms: count 0; 7 bits left; exactly 8 bits left. -/
theorem witness_byte_body :
    ((at' .byte [0x40, 0x10] 12 4 0 []).pq = [] ∧ (at' .byte [0x40, 0x10] 12 4 0 []).rem.toNat = 0) ∧
    (0 < (at' .byte [0x40, 0x14] 9 4 1 []).rem.toNat ∧ (at' .byte [0x40, 0x14] 9 4 1 []).avail = 7) ∧
    (0 < (at' .byte [0x40, 0x14] 8 4 1 []).rem.toNat ∧ (at' .byte [0x40, 0x14] 8 4 1 []).avail = 8 ∧
      (at' .byte [0x40, 0x14] 8 4 1 []).FieldLoaded 8) := by decide

/-- L1-6's buffer, and one with nothing after its header. -/
theorem witness_cut_byte :
    (0 % 4 = 0 ∧ 0 + 12 ≤ 8 * ([0x40, 0xA4, 0x84, 0x54, 0xC0] : List Byte).length ∧
      (refRead [0x40, 0xA4, 0x84, 0x54, 0xC0] 0 4).1 = 0b0100 ∧
      (8 * ([0x40, 0xA4, 0x84, 0x54, 0xC0] : List Byte).length - (0 + 12)) / 8 <
        (refRead [0x40, 0xA4, 0x84, 0x54, 0xC0] (0 + 4) 8).1) ∧
    ((refRead [0x84, 0x01] 4 4).1 = 0b0100 ∧ (8 * ([0x84, 0x01] : List Byte).length - (4 + 12)) / 8 <
      (refRead [0x84, 0x01] (4 + 4) 8).1) := by decide

theorem witness_kanji_skip : (at' .kanji [0x80] 8 8 255 []).phase = .kanji ∧ (at' .kanji [0x80] 8 8 255 []).pq = [] := by
  decide

/-- The last address, the first outside; busy. -/
theorem witness_load :
    (sDone.busy = false ∧ 7 < sDone.cwDepth) ∧ sDone.cwDepth ≤ 8 ∧ sHdr.busy = true := by decide

/-- The whole buffer, one byte more; busy. -/
theorem witness_start : (sDone.busy = false ∧ 8 ≤ sDone.cwDepth) ∧ sDone.cwDepth < 9 ∧ sHdr.busy = true := by decide

theorem witness_pop : sWaiting.pq = [0x41] ∧ sHdr.pq = [] := by decide

theorem witness_load_then_start :
    let s := withEdge sDone
      (edgeOf { PortIn.quiet with cwWe := true, cwAddr := 7, cwWdata := 0x30, start := true, startLen := 8 })
    s.busy = false ∧ s.nextEdge.ports.rst = false ∧ s.nextEdge.ports.cwWe = true ∧ s.nextEdge.ports.start = true ∧
      s.nextEdge.ports.cwAddr < s.cwDepth ∧ s.nextEdge.ports.startLen ≤ s.cwDepth := by decide

theorem witness_busy_ignores : sHdr.busy = true ∧ sWaiting.busy = true := by decide

theorem witness_pop_shares_no_edge :
    sHdr.Inv ∧ sHdr.decoderEnabled = true ∧ sDone.Inv ∧ sDone.busy = false ∧ 8 ≤ sDone.cwDepth :=
  ⟨inv_of _ (by decide), by decide, inv_of _ (by decide), by decide, by decide⟩

theorem witness_start_forgets :
    sDone.busy = false ∧ { State.resetWith 8 with cw := sDone.cw }.busy = false ∧ 8 ≤ sDone.cwDepth ∧
      sDone.cw = { State.resetWith 8 with cw := sDone.cw }.cw ∧
      sDone.cwDepth = { State.resetWith 8 with cw := sDone.cw }.cwDepth ∧
      sDone.inputs = { State.resetWith 8 with cw := sDone.cw }.inputs := by decide

/-- A halting segment, a counted one in each kind of phase, and Kanji. -/
theorem witness_segment_frame :
    (∃ t, exec .term sHdr = .next t) ∧ Instr.isHalting .term = true ∧ Instr.isHalting .unsup1010 = true ∧
      Instr.isCounted .num = true ∧ (∃ t, exec .num (at' .num [0x10, 0x24, 0x7B] 14 1 9 []) = .next t) ∧
      (∃ t, exec .num (at' .cnt [0x10, 0x24] 4 1 0 []) = .next t) ∧ (∃ t, exec .kanji sHdr = .next t) ∧
      (nextOf (exec .num (at' .hdr [0x10] 5 1 0 []))).map (·.hr) = some .exhaust ∧
      (nextOf (exec .num (at' .hdr [0x10] 4 0 0 []))).map (·.mode) = some 1 :=
  ⟨⟨_, rfl⟩, by decide, by decide, by decide, ⟨_, rfl⟩, ⟨_, rfl⟩, ⟨_, rfl⟩, by decide, by decide⟩

theorem witness_host_frame :
    (∃ t, exec (.load 7 1) sDone = .next t) ∧ (∃ t, exec (.start 8) sDone = .next t) ∧ ∃ t, exec .pop sWaiting = .next t :=
  ⟨⟨_, rfl⟩, ⟨_, rfl⟩, _, rfl⟩

/-- A body step that emits, and a POP. -/
theorem witness_output_conserved :
    ((at' .num [0x10, 0x24, 0x7B] 14 1 9 []).Inv ∧ (at' .num [0x10, 0x24, 0x7B] 14 1 9 []).busy = true ∧
      (at' .num [0x10, 0x24, 0x7B] 14 1 9 []).nextEdge.ports.rst = false ∧
      (nextOf (step (at' .num [0x10, 0x24, 0x7B] 14 1 9 []))).map (·.pq) = some [0x31, 0x32, 0x33]) ∧
    (sWaiting.Inv ∧ sWaiting.busy = true) :=
  ⟨⟨inv_of _ (by decide), by decide, by decide, by decide⟩, inv_of _ (by decide), by decide⟩

theorem witness_reference_fuel : 2 * ([0x1A] : List Byte).length + 1 ≤ 3 := by decide

theorem witness_step_refines :
    (at' .num [0x10, 0x24, 0x7B] 14 1 9 []).Inv ∧ (at' .num [0x10, 0x24, 0x7B] 14 1 9 []).busy = true ∧
      (at' .num [0x10, 0x24, 0x7B] 14 1 9 []).Holds [0x10, 0x24, 0x7B] ∧
      (at' .num [0x10, 0x24, 0x7B] 14 1 9 []).nextEdge.ports.rst = false ∧
      ∃ t, step (at' .num [0x10, 0x24, 0x7B] 14 1 9 []) = .next t :=
  ⟨inv_of _ (by decide), by decide, by decide, by decide, _, rfl⟩

/-- The state after START on one terminator byte, whose decode is one step long. -/
def sStarted : State :=
  { sDone with phase := .hdr, L := 1, cur := 0, mode := 0, rem := 0, pq := [], hr := .none, taken := [] }

theorem witness_machine_refines :
    sDone.Inv ∧ sDone.busy = false ∧ ([0x00] : List Byte).length ≤ sDone.cwDepth ∧
      (∀ a, a < ([0x00] : List Byte).length → Memory.read sDone.cw a = ([0x00] : List Byte)[a]?) ∧
      exec (.start ([0x00] : List Byte).length) sDone = .next sStarted ∧
      (∀ e ∈ sStarted.inputs.take 1, e.ports.rst = false) ∧
      (∀ j, j < 1 → ∀ u, core.run j sStarted = .next u → u.done = false) ∧
      ∃ t : State, core.run 1 sStarted = .next t ∧ t.done = true := by
  refine ⟨inv_of _ (by decide), by decide, by decide, by decide, rfl, by decide, ?_, _, rfl, by decide⟩
  intro j hj u hu
  obtain rfl : j = 0 := by omega
  cases hu
  rfl

/-- The empty decode: one edge that serves it is enough. -/
theorem witness_served :
    let s := withEdge (at' .hdr [] 0 0 0 []) (edgeOf { PortIn.quiet with outReady := true })
    s.Inv ∧ s.Loaded ∧ s.phase = .hdr ∧ (∀ e ∈ s.inputs.take 1, e.ports.rst = false) ∧
      2734 * s.L + 1 ≤ (s.inputs.take 1).countP Edge.serving :=
  ⟨inv_of _ (by decide), by decide, by decide, by decide, by decide⟩

/-- The decoder goes at even edges and the host takes at odd ones: never both at one edge. -/
def alternate : Schedule := fun j =>
  { ports := { PortIn.quiet with outReady := j % 2 == 1 }, decoderGo := j % 2 == 0 }

/-- A byte is waiting, and the decoder owes the end of its segment and the halt. -/
def sOwed : State := at' .byte [] 0 0b0100 0 [0x41]

theorem alternate_decoderFair (s : State) : alternate.DecoderFair s :=
  fun k => ⟨2 * k, by omega, fun _ _ _ => by simp [alternate, Edge.takesDecoderStep, PortIn.quiet]⟩

theorem alternate_hostFair (s : State) : alternate.HostFair s :=
  fun k => ⟨2 * k + 1, by omega, fun _ _ _ => by simp [alternate]⟩

/-- The end of that decode. -/
def sOver : State := { at' .done [] 0 0b0100 0 [] with hr := .exhaust, taken := [0x41] }

theorem sOver_holds (e : Edge) (he : e.ports = { PortIn.quiet with outReady := e.ports.outReady }) :
    step { sOver with inputs := [e] } = .next sOver := by
  obtain ⟨p, g⟩ := e
  obtain ⟨r, we, a, b, st, n, o⟩ := p
  simp only [PortIn.quiet, PortIn.mk.injEq] at he
  obtain ⟨rfl, rfl, rfl, rfl, rfl, rfl, -⟩ := he
  cases g <;> cases o <;> rfl

theorem alternate_run (k : Nat) : alternate.run (k + 5) sOwed = .next sOver := by
  induction k with
  | zero => rfl
  | succ k ih => rw [Nat.add_right_comm, Schedule.run_succ_of_run ih]; exact sOver_holds _ rfl

/-- A fair schedule at which no edge serves both sides (R210). -/
theorem witness_progress :
    sOwed.Inv ∧ sOwed.busy = true ∧ alternate.DecoderFair sOwed ∧ alternate.HostFair sOwed ∧
      alternate.LetsDecodeRun sOwed := by
  refine ⟨inv_of _ (by decide), by decide, alternate_decoderFair _, alternate_hostFair _, fun k u _ _ => ⟨rfl, ?_⟩⟩
  match k with
  | 0 | 1 | 2 | 3 | 4 => exact ⟨_, rfl⟩
  | k + 5 => exact ⟨sOver, by rw [Nat.add_right_comm]; exact alternate_run (k + 1)⟩

theorem witness_decoder_steps :
    sHdr.Inv ∧ sHdr.phase = .hdr ∧ ∀ j, j < 1 → ∃ u : State, core.run j sHdr = .next u ∧ u.busy = true := by
  refine ⟨inv_of _ (by decide), rfl, fun j hj => ?_⟩
  obtain rfl : j = 0 := by omega
  exact ⟨sHdr, rfl, by decide⟩

/-- One segment of each kind, a terminator, and another line after it. -/
theorem witness_assembled :
    (∀ p ∈ [Pseudo.num [0x37], .alnum [0x41], .byte [0x00], .kanjiZeros 1, .kanji [5]],
      isSegment p = true ∧ pseudoWf p = true) ∧
    (assemble ([Pseudo.num [0x37]].map AsmLine.pseudo ++ AsmLine.pseudo .term :: [.base (.mode 0b0111)])).isSome = true := by
  decide

end Sys2Proof.Tests
end

section
/-! PROOFS. The invariant (O3), the widths of R12 and R13 (O9) and the writers of the registers (O18): what each kind of step
can do to the invariant's parts, said once per decoder move and per host command. -/

namespace Sys2Proof.Machine

/-! ## The phase's own conditions, phase by phase -/

theorem phaseOk_idle {s : State} (hp : s.phase = .idle) : phaseOk s = true ↔ s.pq = [] ∧ s.hr = .none := by
  simp [phaseOk, hp]

theorem phaseOk_hdr {s : State} (hp : s.phase = .hdr) : phaseOk s = true ↔ s.pq = [] ∧ s.hr = .none := by
  simp [phaseOk, hp]

theorem phaseOk_cnt {s : State} (hp : s.phase = .cnt) :
    phaseOk s = true ↔ s.pq = [] ∧ s.hr = .none ∧ s.mode ≠ 0 := by
  simp [phaseOk, hp, and_assoc]

theorem phaseOk_num {s : State} (hp : s.phase = .num) : phaseOk s = true ↔ s.hr = .none ∧ s.mode = 1 := by
  simp [phaseOk, hp]

theorem phaseOk_alnum {s : State} (hp : s.phase = .alnum) :
    phaseOk s = true ↔ s.hr = .none ∧ s.mode = 2 ∧ s.rem.toNat < 2 ^ wCcAlnum := by
  simp [phaseOk, hp, and_assoc]

theorem phaseOk_byte {s : State} (hp : s.phase = .byte) :
    phaseOk s = true ↔ s.hr = .none ∧ s.mode = 4 ∧ s.rem.toNat < 2 ^ wCcByte := by
  simp [phaseOk, hp, and_assoc]

theorem phaseOk_kanji {s : State} (hp : s.phase = .kanji) :
    phaseOk s = true ↔ s.pq = [] ∧ s.hr = .none ∧ s.mode = 8 ∧ s.rem.toNat < 2 ^ wCcKanji := by
  simp [phaseOk, hp, and_assoc]

theorem phaseOk_done {s : State} (hp : s.phase = .done) : phaseOk s = true ↔ s.pq = [] ∧ s.hr ≠ .none := by
  simp [phaseOk, hp]

/-- No halt reason stands before the halt (R27). -/
theorem hr_none_of_busy {s : State} (h : phaseOk s = true) (hb : s.busy = true) : s.hr = .none := by
  cases hp : s.phase with
  | idle | done => simp [State.busy, hp] at hb
  | hdr => exact ((phaseOk_hdr hp).mp h).2
  | cnt => exact ((phaseOk_cnt hp).mp h).2.1
  | num => exact ((phaseOk_num hp).mp h).1
  | alnum => exact ((phaseOk_alnum hp).mp h).1
  | byte => exact ((phaseOk_byte hp).mp h).1
  | kanji => exact ((phaseOk_kanji hp).mp h).2.1

/-- The queue is empty while no decode is in progress (R26, R92). -/
theorem pq_nil_of_not_busy {s : State} (h : phaseOk s = true) (hb : s.busy = false) : s.pq = [] := by
  cases hp : s.phase with
  | idle => exact ((phaseOk_idle hp).mp h).1
  | done => exact ((phaseOk_done hp).mp h).1
  | hdr | cnt | num | alnum | byte | kanji => simp [State.busy, hp] at hb

/-- Taking the front of the queue keeps the phase's conditions, which only ever ask the queue to be empty. -/
theorem phaseOk_tail {s : State} (h : phaseOk s = true) (tk : List Byte) :
    phaseOk { s with pq := s.pq.tail, taken := tk } = true := by
  have hempty : s.pq.isEmpty = true → s.pq.tail.isEmpty = true := by cases s.pq <;> simp
  unfold phaseOk at h ⊢
  cases hp : s.phase <;> simp only [hp, Bool.and_eq_true] at h ⊢ <;> tauto

/-! ## What a decoder move does to each part of the invariant -/

section
variable {s t : State}

/-- No decoder move writes the buffer length, the RAM or the capacity (R22, R29, R12). -/
theorem DecoderMove.frame (h : DecoderMove s t) : t.L = s.L ∧ t.cw = s.cw ∧ t.cwDepth = s.cwDepth := by
  cases h <;> exact ⟨rfl, rfl, rfl⟩

/-- A decoder move leaves the cursor inside the buffer (R21). -/
theorem DecoderMove.cur_le (h : DecoderMove s t) (hc : s.cur ≤ 8 * s.L) : t.cur ≤ 8 * t.L := by
  have hshort : ∀ w, s.cur + min w s.avail ≤ 8 * s.L := fun w => by unfold State.avail; omega
  cases h with
  | exhaust | bodyEnd | byteAbandon => exact hc
  | term _ ha | unsup _ ha | latch _ _ _ ha => simpa [latchMode, Nat.min_eq_left ha] using hshort 4
  | count _ w | group w => exact hshort w
  | skip => exact Nat.min_le_right ..

/-- The loop head alone writes `mode`, to the four bits at the cursor when they are a supported mode (R24, R94). -/
theorem DecoderMove.mode_cases (h : DecoderMove s t) :
    t.mode = s.mode ∨
      (s.phase = .hdr ∧ t.mode.toNat = s.field 4 ∧ (t.mode = 1 ∨ t.mode = 2 ∨ t.mode = 4 ∨ t.mode = 8)) := by
  cases h with
  | latch m hm hp _ _ hv => exact .inr ⟨hp, hv.symm, hm⟩
  | exhaust | term | unsup | count | bodyEnd | byteAbandon | group | skip => exact .inl rfl

/-- One group gives at most 3 bytes (R26, R61). -/
theorem DecoderMove.pq_le (h : DecoderMove s t) (hq : s.pq = []) : t.pq.length ≤ 3 := by
  cases h with
  | group w k bs _ _ _ hg =>
    suffices bs.length ≤ 3 by simpa [hq] using this
    rcases hg with ⟨_, _, _, rfl⟩ | ⟨_, _, _, _, rfl⟩ | ⟨_, _, _, _, rfl⟩ | ⟨_, _, _, rfl⟩ | ⟨_, _, _, _, rfl⟩ |
      ⟨_, _, _, _, rfl⟩
    · simp
    · simp
    · simp
    · exact (antPairBytes_length_le _).trans (by decide)
    · exact (antBytes_length_le _).trans (by decide)
    · simp
  | exhaust | term | unsup | latch | count | bodyEnd | byteAbandon | skip => exact hq ▸ Nat.zero_le 3

/-- A number below `b` keeps below it in the 10 bits of `rem` (R25). -/
theorem toNat_ofNat_lt {n b : Nat} (h : n < b) : (BitVec.ofNat 10 n).toNat < b := by
  rw [BitVec.toNat_ofNat]
  exact (Nat.mod_le ..).trans_lt h

/-- A decoder move leads to a state that meets its own phase's conditions. -/
theorem DecoderMove.phase_ok (h : DecoderMove s t) (hq : s.pq = []) (hr : s.hr = .none) (hok : phaseOk s = true) :
    phaseOk t = true := by
  cases h with
  | exhaust | term | unsup => exact (phaseOk_done rfl).mpr ⟨hq, by simp⟩
  | bodyEnd | byteAbandon | skip => exact (phaseOk_hdr rfl).mpr ⟨hq, hr⟩
  | latch m hm =>
    have hm0 : m ≠ 0 := by rcases hm with rfl | rfl | rfl | rfl <;> decide
    exact (phaseOk_cnt rfl).mpr ⟨hq, hr, hm0⟩
  | count m w p hm _ hmode =>
    have hrem := toNat_ofNat_lt (s.field_lt_width w)
    rcases hm with ⟨rfl, rfl, rfl⟩ | ⟨rfl, rfl, rfl⟩ | ⟨rfl, rfl, rfl⟩ | ⟨rfl, rfl, rfl⟩
    · exact (phaseOk_num rfl).mpr ⟨hr, hmode⟩
    · exact (phaseOk_alnum rfl).mpr ⟨hr, hmode, hrem⟩
    · exact (phaseOk_byte rfl).mpr ⟨hr, hmode, hrem⟩
    · exact (phaseOk_kanji rfl).mpr ⟨hq, hr, hmode, hrem⟩
  | group w k bs _ _ _ hg =>
    have hrem : ∀ b, s.rem.toNat < b → (BitVec.ofNat 10 (s.rem.toNat - k)).toNat < b := fun b hb =>
      toNat_ofNat_lt ((Nat.sub_le ..).trans_lt hb)
    have hphase : s.phase = .num ∨ s.phase = .alnum ∨ s.phase = .byte := by tauto
    rcases hphase with hp | hp | hp
    · obtain ⟨_, hmode⟩ := (phaseOk_num hp).mp hok
      rw [phaseOk_num (by exact hp)]
      exact ⟨hr, hmode⟩
    · obtain ⟨_, hmode, hlt⟩ := (phaseOk_alnum hp).mp hok
      rw [phaseOk_alnum (by exact hp)]
      exact ⟨hr, hmode, hrem _ hlt⟩
    · obtain ⟨_, hmode, hlt⟩ := (phaseOk_byte hp).mp hok
      rw [phaseOk_byte (by exact hp)]
      exact ⟨hr, hmode, hrem _ hlt⟩

/-- An enabled decoder's move keeps the invariant. -/
theorem DecoderMove.keeps_inv (h : DecoderMove s t) (he : s.decoderEnabled = true) (hs : s.Inv) : t.Inv := by
  obtain ⟨hb, hq⟩ := (State.decoderEnabled_iff s).mp he
  obtain ⟨hL, hcw, hdepth⟩ := h.frame
  exact {
    depth_pos := hdepth ▸ hs.depth_pos
    len_le := by rw [hL, hdepth]; exact hs.len_le
    cur_le := h.cur_le hs.cur_le
    pq_le := h.pq_le hq
    cw_wf := hcw ▸ hs.cw_wf
    cw_below := by rw [hcw, hdepth]; exact hs.cw_below
    mode_legal := by
      rcases h.mode_cases with hm | ⟨_, _, hm⟩
      · exact hm ▸ hs.mode_legal
      · rcases hm with hm | hm | hm | hm <;> rw [hm] <;> decide
    phase_ok := h.phase_ok hq (hr_none_of_busy hs.phase_ok hb) hs.phase_ok }

end

/-! ## What the edge's other events do -/

section
variable {s : State}

theorem dropEdge_keeps_inv (h : s.Inv) : s.dropEdge.Inv := { h with }

/-- Reset meets the invariant on the registers it writes and keeps the RAM (R200, R38). -/
theorem applyReset_keeps_inv (h : s.Inv) : s.applyReset.Inv :=
  { h with
    len_le := Nat.zero_le _
    cur_le := Nat.zero_le _
    pq_le := Nat.zero_le _
    mode_legal := rfl
    phase_ok := rfl }

variable (p : PortIn)

/-- What LOAD leaves: the state as it was, or one byte written inside the buffer while not busy (R161, R164). -/
theorem afterLoad_cases (s : State) :
    afterLoad p s = s ∨
      (p.cwWe = true ∧ s.busy = false ∧ p.cwAddr < s.cwDepth ∧
        afterLoad p s = { s with cw := Memory.write s.cw p.cwAddr p.cwWdata }) := by
  unfold afterLoad
  split
  · next hc =>
    simp only [Bool.and_eq_true, Bool.not_eq_true', decide_eq_true_eq] at hc
    obtain ⟨⟨hstrobe, hb⟩, hfits⟩ := hc
    exact .inr ⟨hstrobe, hb, hfits, rfl⟩
  · exact .inl rfl

/-- What START leaves: the state as it was, or a new decode while not busy, of no more bytes than the buffer's (R162). -/
theorem afterStart_cases (s : State) :
    afterStart p s = s ∨
      (p.start = true ∧ s.busy = false ∧ p.startLen ≤ s.cwDepth ∧
        afterStart p s =
          { s with phase := .hdr, L := p.startLen, cur := 0, mode := 0, rem := 0, pq := [], hr := .none, taken := [] }) := by
  unfold afterStart
  split
  · next hc =>
    simp only [Bool.and_eq_true, Bool.not_eq_true', decide_eq_true_eq] at hc
    obtain ⟨⟨hstrobe, hb⟩, hfits⟩ := hc
    exact .inr ⟨hstrobe, hb, hfits, rfl⟩
  · exact .inl rfl

/-- What POP leaves: the state as it was, or one without the queue's front (R166). -/
theorem afterPop_cases (s : State) :
    afterPop p s = s ∨ ∃ tk, afterPop p s = { s with pq := s.pq.tail, taken := tk } := by
  unfold afterPop
  split
  · exact .inr ⟨_, rfl⟩
  · exact .inl rfl

theorem afterLoad_keeps_inv (h : s.Inv) : (afterLoad p s).Inv := by
  rcases afterLoad_cases p s with he | ⟨_, _, ha, he⟩ <;> rw [he]
  · exact h
  · exact { h with
      cw_wf := Memory.wf_write _ _ h.cw_wf
      cw_below := Memory.below_write _ h.cw_below ha }

theorem afterStart_keeps_inv (h : s.Inv) : (afterStart p s).Inv := by
  rcases afterStart_cases p s with he | ⟨_, _, hn, he⟩ <;> rw [he]
  · exact h
  · exact { h with
      len_le := hn
      cur_le := Nat.zero_le _
      pq_le := Nat.zero_le _
      mode_legal := rfl
      phase_ok := rfl }

theorem afterPop_keeps_inv (h : s.Inv) : (afterPop p s).Inv := by
  rcases afterPop_cases p s with he | ⟨tk, he⟩ <;> rw [he]
  · exact h
  · exact { h with
      pq_le := (List.tail_sublist _).length_le.trans h.pq_le
      phase_ok := phaseOk_tail h.phase_ok tk }

end

/-- Settles O3: each event of an edge keeps the invariant, and `step_cases` says which events there are. -/
theorem stepKeepsInvariant : Obligations.StepKeepsInvariant := by
  intro s t hs h
  have hd := dropEdge_keeps_inv hs
  rcases step_cases h with ⟨_, rfl⟩ | ⟨_, he, _, hm⟩ | ⟨_, _, _, rfl⟩ | ⟨_, _, rfl⟩
  · exact applyReset_keeps_inv hd
  · exact hm.keeps_inv he hd
  · exact hd
  · exact afterPop_keeps_inv _ (afterStart_keeps_inv _ (afterLoad_keeps_inv _ hd))

/-! ## Widths -/

/-- `clog2 n` bits count to `n` (R12's `ceil(log2 n)`). -/
theorem le_two_pow_clog2 (n : Nat) : n ≤ 2 ^ Config.clog2 n := by
  unfold Config.clog2
  split
  · simpa
  · have := Nat.lt_log2_self (n := n - 1)
    omega

/-- A number up to the capacity fits a length's `LEN_W` bits (R12). -/
theorem lt_two_pow_lenW {n depth : Nat} (h : n ≤ depth) : n < 2 ^ Config.lenW depth :=
  (Nat.lt_succ_of_le h).trans_le (le_two_pow_clog2 _)

/-- An address of the buffer fits `AW` bits (R12). -/
theorem lt_two_pow_addrW {a depth : Nat} (h : a < depth) : a < 2 ^ Config.addrW depth :=
  h.trans_le ((le_two_pow_clog2 depth).trans (Nat.pow_le_pow_right (by decide) (Nat.le_max_right ..)))

/-- A bit position up to the buffer's end fits the cursor's `CUR_W = LEN_W + 3` bits (R12). -/
theorem lt_two_pow_curW {c depth : Nat} (h : c ≤ 8 * depth) : c < 2 ^ Config.curW depth := by
  have := lt_two_pow_lenW (le_refl depth)
  rw [Config.curW, Nat.pow_add]
  omega

/-- The sum of the Kanji skip fits its adder's `CUR_W + 12` bits (R13), a cursor having at least 3 bits and `rem` 10. -/
theorem kanjiSum_lt {c depth : Nat} (h : c ≤ 8 * depth) (r : BitVec 10) :
    c + 13 * r.toNat < 2 ^ Config.kanjiAdderW depth := by
  have hc := lt_two_pow_curW h
  have hcur : 2 ^ 3 ≤ 2 ^ Config.curW depth := Nat.pow_le_pow_right (by decide) (Nat.le_add_left ..)
  have hr := r.isLt
  rw [Config.kanjiAdderW, Nat.pow_add]
  omega

/-- Settles O9: the invariant's bounds, in the widths of R12 and R13. -/
theorem widthsNeverWrap : Obligations.WidthsNeverWrap := by
  intro s hs
  have hcur : s.cur ≤ 8 * s.cwDepth := hs.cur_le.trans (Nat.mul_le_mul_left 8 hs.len_le)
  exact ⟨lt_two_pow_lenW hs.len_le, lt_two_pow_curW hcur, fun _ => lt_two_pow_addrW, fun _ => kanjiSum_lt hcur s.rem⟩

/-! ## Writers -/

section
variable (p : PortIn) (s : State)

@[simp] theorem afterLoad_L : (afterLoad p s).L = s.L := by unfold afterLoad; split <;> rfl
@[simp] theorem afterLoad_mode : (afterLoad p s).mode = s.mode := by unfold afterLoad; split <;> rfl
@[simp] theorem afterLoad_busy : (afterLoad p s).busy = s.busy := by unfold afterLoad; split <;> rfl
@[simp] theorem afterLoad_cwDepth : (afterLoad p s).cwDepth = s.cwDepth := by unfold afterLoad; split <;> rfl

@[simp] theorem afterStart_cw : (afterStart p s).cw = s.cw := by unfold afterStart; split <;> rfl
@[simp] theorem afterStart_cwDepth : (afterStart p s).cwDepth = s.cwDepth := by unfold afterStart; split <;> rfl

@[simp] theorem afterPop_L : (afterPop p s).L = s.L := by unfold afterPop; split <;> rfl
@[simp] theorem afterPop_mode : (afterPop p s).mode = s.mode := by unfold afterPop; split <;> rfl
@[simp] theorem afterPop_cw : (afterPop p s).cw = s.cw := by unfold afterPop; split <;> rfl
@[simp] theorem afterPop_cwDepth : (afterPop p s).cwDepth = s.cwDepth := by unfold afterPop; split <;> rfl

variable {p s}

/-- START changes `L` only when it takes effect, to `start_len` (R22, R162). -/
theorem start_of_afterStart_L_ne (h : (afterStart p s).L ≠ s.L) :
    p.start = true ∧ s.busy = false ∧ p.startLen ≤ s.cwDepth ∧ (afterStart p s).L = p.startLen := by
  rcases afterStart_cases p s with he | ⟨hst, hb, hn, he⟩
  · exact absurd (congrArg State.L he) h
  · exact ⟨hst, hb, hn, congrArg State.L he⟩

/-- START changes `mode` only when it takes effect (R24, R162). -/
theorem start_of_afterStart_mode_ne (h : (afterStart p s).mode ≠ s.mode) : p.start = true ∧ s.busy = false := by
  rcases afterStart_cases p s with he | ⟨hst, hb, _⟩
  · exact absurd (congrArg State.mode he) h
  · exact ⟨hst, hb⟩

/-- LOAD changes the byte at its own address alone, to its own byte (R29, R30, R161). -/
theorem load_of_afterLoad_read_ne {a : Nat} (h : Memory.read (afterLoad p s).cw a ≠ Memory.read s.cw a) :
    p.cwWe = true ∧ s.busy = false ∧ a = p.cwAddr ∧ a < s.cwDepth ∧
      Memory.read (afterLoad p s).cw a = some p.cwWdata := by
  rcases afterLoad_cases p s with he | ⟨hwe, hb, hlt, he⟩ <;> rw [he] at h ⊢
  · exact absurd rfl h
  · have ha : a = p.cwAddr := by
      by_contra hne
      exact h (Memory.read_write_ne _ _ hne)
    subst ha
    exact ⟨hwe, hb, rfl, hlt, Memory.read_write_same ..⟩

end

/-- Settles O18: of an edge's events reset, START, LOAD and the loop head alone write these registers. -/
theorem registerWriters : Obligations.RegisterWriters := by
  intro s t _ h
  rcases step_cases h with ⟨hrst, rfl⟩ | ⟨_, _, _, hm⟩ | ⟨_, _, _, rfl⟩ | ⟨hrst, _, rfl⟩
  · exact ⟨rfl, fun _ => .inl hrst, fun _ => .inl hrst, fun _ ha => absurd rfl ha⟩
  · obtain ⟨hL, hcw, hdepth⟩ := hm.frame
    refine ⟨hdepth, fun hne => absurd hL hne, fun hne => ?_, fun a ha => absurd (by rw [hcw]; rfl) ha⟩
    exact .inr (.inr (hm.mode_cases.resolve_left hne))
  · exact ⟨rfl, fun hne => absurd rfl hne, fun hne => absurd rfl hne, fun _ ha => absurd rfl ha⟩
  · refine ⟨by simp, fun hne => .inr ?_, fun hne => .inr (.inl ?_), fun a ha => ⟨hrst, ?_⟩⟩
    · simpa using start_of_afterStart_L_ne (p := s.nextEdge.ports) (s := afterLoad s.nextEdge.ports s.dropEdge)
        (by simpa using hne)
    · simpa using start_of_afterStart_mode_ne (p := s.nextEdge.ports) (s := afterLoad s.nextEdge.ports s.dropEdge)
        (by simpa using hne)
    · simpa using load_of_afterLoad_read_ne (p := s.nextEdge.ports) (s := s.dropEdge) (a := a) (by simpa using ha)

end Sys2Proof.Machine
end

section
/-! PROOFS. The state family: the reset state (O1, O2), the ports as functions of the state (O5, O6), the host commands that
a port vector decodes to (O23), START's forgetting (O47), and what a step does to `hr` (O7), the cursor (O17) and the output
(O50). -/

namespace Sys2Proof.Machine

/-! ## The reset state -/

/-- Settles O1: each register and port of State.reset computes to its value in R38. -/
theorem resetStateValues : Obligations.ResetStateValues :=
  ⟨rfl, rfl, rfl, rfl, rfl, rfl, rfl, Memory.read_nil, rfl, rfl, rfl, rfl, fun _ => rfl⟩

/-- A buffer of at least one byte is all that the reset state's invariant asks of the capacity (R12, R38). -/
theorem resetWith_inv {depth : Nat} (h : 1 ≤ depth) : (State.resetWith depth).Inv where
  depth_pos := h
  len_le := Nat.zero_le _
  cur_le := Nat.zero_le _
  pq_le := Nat.zero_le _
  cw_wf := State.resetWith_cw_wf depth
  cw_below := rfl
  mode_legal := rfl
  phase_ok := rfl

/-- Settles O2: State.reset is the reset state of the capacity `Config.cwDepthAtReset`. -/
theorem resetMeetsInvariant : Obligations.ResetMeetsInvariant :=
  ⟨resetWith_inv (by decide), fun _ => resetWith_inv⟩

/-! ## The ports -/

/-- The six phases of a decode in progress, named (R36). -/
theorem busy_iff_decoding_phase (s : State) :
    s.busy = true ↔ s.phase = .hdr ∨ s.phase = .cnt ∨ s.phase = .num ∨ s.phase = .alnum ∨ s.phase = .byte ∨
      s.phase = .kanji := by
  rw [State.busy_iff]
  cases s.phase <;> decide

theorem done_iff (s : State) : s.done = true ↔ s.phase = .done ∧ s.pq.length = 0 := by
  simp [State.done]

/-- Only a decode that has halted can be done (R36). -/
theorem done_eq_false_of_phase_ne {s : State} (h : s.phase ≠ .done) : s.done = false := by
  simp [State.done, h]

theorem done_eq_false_of_busy {s : State} (h : s.busy = true) : s.done = false :=
  done_eq_false_of_phase_ne ((State.busy_iff s).mp h).2

/-- A byte waits only while a decode is in progress (R26, R36). -/
theorem busy_of_pq_ne_nil {s : State} (h : phaseOk s = true) (hq : s.pq ≠ []) : s.busy = true := by
  by_contra hb
  exact hq (pq_nil_of_not_busy h (by simpa using hb))

/-- Settles O5: `busy` and `done` are about different phases, and the invariant keeps the queue empty outside a decode. -/
theorem statusPortsOfState : Obligations.StatusPortsOfState := by
  refine ⟨fun s => ⟨busy_iff_decoding_phase s, done_iff s, rfl, fun ⟨hb, hd⟩ => ?_, fun hp => ⟨?_, ?_⟩⟩,
    fun s hs hq => ?_⟩
  · simp [done_eq_false_of_busy hb] at hd
  · simp [State.busy, hp]
  · exact done_eq_false_of_phase_ne (by simp [hp])
  · have hb := busy_of_pq_ne_nil hs.phase_ok hq
    exact ⟨hb, done_eq_false_of_busy hb⟩

/-- Settles O6: `out_valid` and `out_data` on an empty queue and on a front byte (R37). -/
theorem outputPortsOfState : Obligations.OutputPortsOfState := by
  refine fun s => ⟨?_, fun b rest hq x => ?_, fun hv x => ?_⟩
  · simp [State.outValid, List.length_pos_iff]
  · simp [State.outDataMayBe, hq]
  · have hq : s.pq = [] := by simpa [State.outValid] using hv
    simp [State.outDataMayBe, hq]

/-! ## The commands of a port vector -/

/-- What a port vector decodes to: without reset, the command of each strobe that is high (R161, R162, R166, R200). -/
theorem mem_decodePorts {p : PortIn} {i : Instr} :
    i ∈ decodePorts p ↔ p.rst = false ∧
      ((p.cwWe = true ∧ i = .load p.cwAddr p.cwWdata) ∨ (p.start = true ∧ i = .start p.startLen) ∨
        (p.outReady = true ∧ i = .pop)) := by
  cases hr : p.rst <;> simp [decodePorts, hr]

/-- Settles O23: each clause is a case of `mem_decodePorts`. -/
theorem portVectorsDecodeWhole : Obligations.PortVectorsDecodeWhole := by
  refine fun p => ⟨fun depth hw i hi => ?_, fun hr => ?_, fun i hi => ?_⟩
  · simp only [PortIn.wf, Bool.and_eq_true] at hw
    obtain ⟨haddr, hlen⟩ := hw
    obtain ⟨-, ⟨-, rfl⟩ | ⟨-, rfl⟩ | ⟨-, rfl⟩⟩ := mem_decodePorts.mp hi
    · exact haddr
    · exact hlen
    · rfl
  · simp [mem_decodePorts, hr]
  · obtain ⟨-, ⟨-, rfl⟩ | ⟨-, rfl⟩ | ⟨-, rfl⟩⟩ := mem_decodePorts.mp hi <;> rfl

/-! ## START -/

/-- START of a length that the buffer holds takes effect when no decode is in progress (R162). -/
theorem execStart_of_not_busy {n : Nat} {s : State} (hb : s.busy = false) (hn : n ≤ s.cwDepth) :
    execStart n s = .next
      { s with phase := .hdr, L := n, cur := 0, mode := 0, rem := 0, pq := [], hr := .none, taken := [] } := by
  rcases execStart_cases n s with ⟨_, h⟩ | ⟨_, _, he⟩
  · rcases h with h | h
    · simp [hb] at h
    · omega
  · exact he

/-- Settles O47: of the state before it START keeps CW, the capacity and the coming inputs alone. -/
theorem startForgetsEarlierDecode : Obligations.StartForgetsEarlierDecode := by
  intro n s1 s2 hb1 hb2 hn hcw hdepth hinputs
  refine ⟨_, execStart_of_not_busy hb1 hn, ?_⟩
  rw [hcw, hdepth, hinputs]
  exact execStart_of_not_busy hb2 (hdepth ▸ hn)

/-! ## What the moves and commands do to `hr`, the cursor and the output -/

section
variable {s t : State}

/-- The loop head alone writes `hr`: the three halts (R27, R96, R97, R98). -/
theorem DecoderMove.hr_cases (h : DecoderMove s t) :
    t.hr = s.hr ∨
      (t.hr = .term ∧ s.phase = .hdr ∧ 4 ≤ s.avail ∧ s.field 4 = 0) ∨
      (t.hr = .unsup ∧ s.phase = .hdr ∧ 4 ≤ s.avail ∧ s.field 4 ≠ 0 ∧ s.field 4 ≠ 1 ∧ s.field 4 ≠ 2 ∧
        s.field 4 ≠ 4 ∧ s.field 4 ≠ 8) ∨
      (t.hr = .exhaust ∧ s.phase = .hdr ∧ s.avail < 4) := by
  cases h with
  | latch | count | bodyEnd | byteAbandon | group | skip => exact .inl rfl
  | term hp ha _ hv => exact .inr (.inl ⟨rfl, hp, ha, hv⟩)
  | unsup hp ha _ h0 h1 h2 h4 h8 => exact .inr (.inr (.inl ⟨rfl, hp, ha, h0, h1, h2, h4, h8⟩))
  | exhaust hp ha => exact .inr (.inr (.inr ⟨rfl, hp, ha⟩))

/-- No decoder move takes the cursor back (R21); the Kanji skip clamps to the end of the buffer, which the cursor is not past. -/
theorem DecoderMove.le_cur (h : DecoderMove s t) (hc : s.cur ≤ 8 * s.L) : s.cur ≤ t.cur := by
  cases h with
  | exhaust | bodyEnd | byteAbandon => exact Nat.le_refl _
  | term | unsup | latch | count | group => exact Nat.le_add_right ..
  | skip => exact Nat.le_min.mpr ⟨Nat.le_add_right .., hc⟩

/-- A decoder move hands nothing over and queues bytes only at the end and in a body (R61, R62). -/
theorem DecoderMove.output (h : DecoderMove s t) :
    t.taken = s.taken ∧
      ∃ bs, t.pq = s.pq ++ bs ∧ (bs ≠ [] → s.phase = .num ∨ s.phase = .alnum ∨ s.phase = .byte) := by
  cases h with
  | group w k bs _ _ _ hg => exact ⟨rfl, bs, rfl, fun _ => by tauto⟩
  | exhaust | term | unsup | latch | count | bodyEnd | byteAbandon | skip =>
    exact ⟨rfl, [], (List.append_nil _).symm, fun hne => absurd rfl hne⟩

end

section
variable (p : PortIn) (s : State)

@[simp] theorem afterLoad_hr : (afterLoad p s).hr = s.hr := by unfold afterLoad; split <;> rfl
@[simp] theorem afterLoad_cur : (afterLoad p s).cur = s.cur := by unfold afterLoad; split <;> rfl

@[simp] theorem afterPop_hr : (afterPop p s).hr = s.hr := by unfold afterPop; split <;> rfl
@[simp] theorem afterPop_cur : (afterPop p s).cur = s.cur := by unfold afterPop; split <;> rfl

/-- POP takes the queue's front over to the end of what was taken (R62, R166). -/
theorem afterPop_output : (afterPop p s).taken ++ (afterPop p s).pq = s.taken ++ s.pq := by
  unfold afterPop
  split
  · cases hq : s.pq <;> simp
  · rfl

variable {p s}

/-- START changes `hr` only where its strobe is high, to NONE (R27, R162). -/
theorem start_of_afterStart_hr_ne (h : (afterStart p s).hr ≠ s.hr) : (afterStart p s).hr = .none ∧ p.start = true := by
  rcases afterStart_cases p s with he | ⟨hst, _, _, he⟩
  · exact absurd (congrArg State.hr he) h
  · exact ⟨congrArg State.hr he, hst⟩

/-- START changes the cursor only when it takes effect, to 0 (R21, R162). -/
theorem start_of_afterStart_cur_ne (h : (afterStart p s).cur ≠ s.cur) :
    (afterStart p s).cur = 0 ∧ p.start = true ∧ s.busy = false := by
  rcases afterStart_cases p s with he | ⟨hst, hb, _, he⟩
  · exact absurd (congrArg State.cur he) h
  · exact ⟨congrArg State.cur he, hst, hb⟩

/-- While a decode is in progress, LOAD and START leave the state as it is (R163, R164). -/
theorem afterStart_afterLoad_of_busy (hb : s.busy = true) : afterStart p (afterLoad p s) = s := by
  simp [afterStart, afterLoad, hb]

end

/-- Settles O7: reset and START write NONE, the loop head the other three, and no other event of an edge writes `hr`. -/
theorem haltReasonWriters : Obligations.HaltReasonWriters := by
  refine ⟨rfl, rfl, rfl, rfl, fun s t _ h hne => ?_⟩
  rcases step_cases h with ⟨hrst, rfl⟩ | ⟨_, _, _, hm⟩ | ⟨_, _, _, rfl⟩ | ⟨_, _, rfl⟩
  · exact .inl ⟨rfl, .inl hrst⟩
  · exact .inr (hm.hr_cases.resolve_left hne)
  · exact absurd rfl hne
  · obtain ⟨hnone, hst⟩ := start_of_afterStart_hr_ne (p := s.nextEdge.ports)
      (s := afterLoad s.nextEdge.ports s.dropEdge) (by simpa using hne)
    exact .inl ⟨by simpa using hnone, .inr hst⟩

/-- A step that makes the cursor smaller sets it to 0, by reset or by a START while not busy (R21). -/
theorem step_cur_lt_cases {s t : State} (hs : s.Inv) (h : step s = .next t) (hlt : t.cur < s.cur) :
    t.cur = 0 ∧ (s.nextEdge.ports.rst = true ∨ (s.nextEdge.ports.start = true ∧ s.busy = false)) := by
  rcases step_cases h with ⟨hrst, rfl⟩ | ⟨_, _, _, hm⟩ | ⟨_, _, _, rfl⟩ | ⟨_, _, rfl⟩
  · exact ⟨rfl, .inl hrst⟩
  · exact absurd hlt (Nat.not_lt.mpr (hm.le_cur hs.cur_le))
  · exact absurd hlt (Nat.lt_irrefl _)
  · obtain ⟨hzero, hst, hb⟩ := start_of_afterStart_cur_ne (p := s.nextEdge.ports)
      (s := afterLoad s.nextEdge.ports s.dropEdge) (by simpa using hlt.ne)
    exact ⟨by simpa using hzero, .inr ⟨hst, by simpa using hb⟩⟩

/-- Settles O17: the bounds are the invariant's after the step and its widths; no decoder move takes the cursor back. -/
theorem cursorNeverRewinds : Obligations.CursorNeverRewinds := by
  refine ⟨rfl, fun s t hs h => ?_⟩
  have ht : t.Inv := stepKeepsInvariant s t hs h
  obtain ⟨_, hcur, _⟩ := widthsNeverWrap t ht
  exact ⟨ht.cur_le, hcur, step_cur_lt_cases hs h⟩

/-- Settles O50: a decoder move only queues, at most 3 bytes behind an empty queue; of the host's commands POP alone has an
effect while busy, and it keeps the sequence. -/
theorem outputConserved : Obligations.OutputConserved := by
  intro s t _ hb hrst h
  rcases step_cases h with ⟨hrst', _⟩ | ⟨_, he, _, hm⟩ | ⟨_, _, _, rfl⟩ | ⟨_, _, rfl⟩
  · simp [hrst] at hrst'
  · obtain ⟨_, hq⟩ := (State.decoderEnabled_iff s).mp he
    obtain ⟨htaken, bs, hpq, hphase⟩ := hm.output
    have hpq : t.pq = bs := by simpa [hq] using hpq
    exact ⟨bs, by simp [htaken, hpq, hq], fun hne => ⟨hq, hpq, hpq ▸ hm.pq_le hq, hphase hne⟩⟩
  · exact ⟨[], by simp, fun hne => absurd rfl hne⟩
  · refine ⟨[], ?_, fun hne => absurd rfl hne⟩
    rw [afterStart_afterLoad_of_busy (by simpa using hb), afterPop_output]
    simp

end Sys2Proof.Machine
end

section
/-! PROOFS. The memory family: what ReadBits answers (O10, O11), the read that a decoder step begins with and its fault
(O12), and that a decode neither writes the RAM (O15) nor depends on it at and above `L` (O16). -/

namespace Sys2Proof.Machine

/-! ## The bits of a field -/

/-- The bits read before a run of `k` bits stand above them (R55). -/
theorem refBits_testBit_add (buf : List Byte) (v i k l : Nat) : (refBits buf v i k).testBit (k + l) = v.testBit l := by
  induction k generalizing v i l with
  | zero => rw [Nat.zero_add]; rfl
  | succ k ih =>
    have hshift : (2 * v + refBit buf i) / 2 = v := by
      have := refBit_lt_two buf i
      omega
    calc (refBits buf (2 * v + refBit buf i) (i + 1) k).testBit (k + 1 + l)
        = (2 * v + refBit buf i).testBit (l + 1) := by rw [Nat.add_right_comm, Nat.add_assoc, ih]
      _ = v.testBit l := by rw [Nat.testBit_succ, hshift]

/-- The `j`-th of `k` bits read is bit `k - 1 - j` of the value, and bit `7 - (i mod 8)` of its byte (R55, R57). -/
theorem refBits_testBit (buf : List Byte) (v i : Nat) {k j : Nat} (h : j < k) :
    (refBits buf v i k).testBit (k - 1 - j) = (buf.getD ((i + j) / 8) 0).getLsbD (7 - (i + j) % 8) := by
  induction k generalizing v i j with
  | zero => omega
  | succ k ih =>
    cases j with
    | zero =>
      have hbit : (2 * v + refBit buf i).testBit 0 = decide (refBit buf i = 1) := by
        rw [Nat.testBit_zero, Nat.mul_add_mod, Nat.mod_eq_of_lt (refBit_lt_two buf i)]
      have hrest := refBits_testBit_add buf (2 * v + refBit buf i) (i + 1) k 0
      rw [hbit] at hrest
      exact hrest.trans (Nat.testBit_eq_decide_div_mod_eq ..).symm
    | succ j =>
      have hj := ih (2 * v + refBit buf i) (i + 1) (Nat.lt_of_succ_lt_succ h)
      rw [show i + 1 + j = i + (j + 1) by omega] at hj
      rw [← hj, refBits]
      congr 1
      omega

/-- The bits that ReadBits reads lie in bytes below `L` (R59). -/
theorem State.readByte_lt (s : State) {n j : Nat} (h : j < min n s.avail) : (s.cur + j) / 8 < s.L := by
  have havail : j < 8 * s.L - s.cur := h.trans_le (Nat.min_le_right ..)
  omega

/-- The `j`-th bit of a loaded field is in its value at place `k - 1 - j` of `k` (R55, R57). -/
theorem State.field_testBit {s : State} {n j : Nat} (hl : s.FieldLoaded n) (h : j < min n s.avail) :
    ∃ b : Byte, Memory.read s.cw ((s.cur + j) / 8) = some b ∧
      (s.field n).testBit (min n s.avail - 1 - j) = b.getLsbD (7 - (s.cur + j) % 8) := by
  obtain ⟨b, hb⟩ := Option.isSome_iff_exists.mp (hl j h)
  have hbuf : s.buffer.getD ((s.cur + j) / 8) 0 = b := by
    rw [State.buffer_getD (s.readByte_lt h), hb, Option.getD_some]
  have hk : min n s.avail = min n (refAvail s.buffer s.cur) := by simp [refAvail, State.avail]
  refine ⟨b, hb, ?_⟩
  rw [← hbuf, hk]
  exact refBits_testBit s.buffer 0 s.cur (hk ▸ h)

/-- Settles O10: the value is the field's, of which `State.field_lt` and `State.field_testBit` say the range and the bits. -/
theorem readBitsValue : Obligations.ReadBitsValue :=
  fun n s hl => ⟨s.field n, readBits_of_loaded hl, s.field_lt n, fun _ => State.field_testBit hl⟩

/-- Settles O11: a short read is O10's read of `Avail()` bits, and a value of no bits is 0. -/
theorem shortReadRightAligned : Obligations.ShortReadRightAligned := by
  intro n s hcur hshort hl
  have hend : s.cur + s.avail = 8 * s.L := Nat.add_sub_of_le hcur
  obtain ⟨v, hread, hlt, hbits⟩ := readBitsValue n s hl
  rw [Nat.min_eq_right hshort.le] at hread hlt hbits
  refine ⟨⟨v, hend ▸ hread, hlt, hbits⟩, fun hnone => ?_⟩
  rw [hnone] at hread hlt
  obtain rfl : v = 0 := by omega
  exact hread

/-! ## The read that a decoder step begins with -/

/-- A step that begins with a field goes on from the state with the cursor past it. -/
theorem withField_advance (n : Nat) (s : State) (k : Nat → State → Result) :
    withField n s k = withField n s fun v _ => k v (s.advance (min n s.avail)) := by
  unfold withField readBits
  cases readBitsLoop s.cw 0 s.cur (min n s.avail) <;> rfl

/-- A field of no bits is the value 0. -/
@[simp] theorem withField_zero (s : State) (k : Nat → State → Result) : withField 0 s k = k 0 s := by
  simp [withField, readBits, readBitsLoop, State.advance]

/-- From `s`, whatever the RAM holds, `f` reads a field of `n` bits and then answers a next state that differs with the
field's value alone and keeps the RAM. -/
def ReadsThenMoves (f : State → Result) (s : State) (n : Nat) : Prop :=
  ∃ move : Nat → State, ∀ m : Memory,
    f { s with cw := m } = withField n { s with cw := m } fun v _ => .next { move v with cw := m }

section
variable {s : State}

/-- A step that reads nothing. -/
theorem ReadsThenMoves.still {f : State → Result} (t : State)
    (h : ∀ m, f { s with cw := m } = .next { t with cw := m }) : ReadsThenMoves f s 0 :=
  ⟨fun _ => t, fun m => by rw [h m, withField_zero]⟩

/-- The CNT step reads its count field (R95). -/
theorem countStep_reads (w : Nat) (p : Phase) : ReadsThenMoves (countStep w p) s w :=
  ⟨fun v => ((s.advance (min w s.avail)).setRem v).goto p, fun _ => withField_advance ..⟩

/-- The NUM body reads a group's field (R111). -/
theorem numBody_reads (hp : s.phase = .num) : ReadsThenMoves numBody s s.readWidth := by
  simp only [State.readWidth, hp]
  split_ifs with h0 h3 h2
  · exact .still (s.goto .hdr) fun _ => if_pos h0
  · exact ⟨fun v => ((s.advance (min 10 s.avail)).emit (tripleBytes v)).setRem (s.rem.toNat - 3),
      fun _ => (if_neg h0).trans ((if_pos h3).trans (withField_advance ..))⟩
  · exact ⟨fun v => ((s.advance (min 7 s.avail)).emit (pairBytes v)).setRem 0,
      fun _ => (if_neg h0).trans ((if_neg h3).trans ((if_pos h2).trans (withField_advance ..)))⟩
  · exact ⟨fun v => ((s.advance (min 4 s.avail)).emit [digit v]).setRem 0,
      fun _ => (if_neg h0).trans ((if_neg h3).trans ((if_neg h2).trans (withField_advance ..)))⟩

/-- The ALNUM body reads a pair's or a single's field (R127). -/
theorem alnumBody_reads (hp : s.phase = .alnum) : ReadsThenMoves alnumBody s s.readWidth := by
  simp only [State.readWidth, hp]
  split_ifs with h0 h2
  · exact .still (s.goto .hdr) fun _ => if_pos h0
  · exact ⟨fun v => ((s.advance (min 11 s.avail)).emit (antPairBytes v)).setRem (s.rem.toNat - 2),
      fun _ => (if_neg h0).trans ((if_pos h2).trans (withField_advance ..))⟩
  · exact ⟨fun v => ((s.advance (min 6 s.avail)).emit (antBytes v)).setRem 0,
      fun _ => (if_neg h0).trans ((if_neg h2).trans (withField_advance ..))⟩

/-- The BYTE body reads a byte where 8 bits are left (R141). -/
theorem byteBody_reads (hp : s.phase = .byte) : ReadsThenMoves byteBody s s.readWidth := by
  simp only [State.readWidth, hp]
  split_ifs with h0 ha
  · exact .still (s.goto .hdr) fun _ => if_pos h0
  · exact .still ((s.setRem 0).goto .hdr) fun _ => (if_neg h0).trans (if_pos ha)
  · exact ⟨fun v => ((s.advance (min 8 s.avail)).emit [BitVec.ofNat 8 v]).setRem (s.rem.toNat - 1),
      fun _ => (if_neg h0).trans ((if_neg ha).trans (withField_advance ..))⟩

/-- The KANJI body reads nothing (R151). -/
theorem kanjiBody_reads (hp : s.phase = .kanji) : ReadsThenMoves kanjiBody s s.readWidth := by
  simp only [State.readWidth, hp]
  exact .still (({ s with cur := min (s.cur + 13 * s.rem.toNat) (8 * s.L) }.setRem 0).goto .hdr) fun _ => rfl

/-- A halting segment's meaning is the halt's, for its own reason (R96, R98). -/
theorem exec_of_isHalting {i : Instr} (h : i.isHalting = true) : ∃ r, exec i = haltSegment r := by
  cases i with
  | term => exact ⟨.term, rfl⟩
  | num | alnum | byte | kanji | load | start | pop => cases h
  | _ => exact ⟨.unsup, rfl⟩

/-- A halting segment at the loop head. -/
theorem haltSegment_hdr {r : HaltReason} (he : s.decoderEnabled = true) (hp : s.phase = .hdr) (ha : 4 ≤ s.avail) :
    haltSegment r s = .next ((s.advance 4).halt r) := by
  simp [haltSegment, he, hp, headerStep, wMode, Nat.not_lt.mpr ha]

/-- A segment at the loop head, its 4 bits left, answers a next state, the same whatever the RAM holds (R94, R96, R98). -/
theorem exec_hdr_next {i : Instr} (hi : i.isSegment = true) (he : s.decoderEnabled = true) (hp : s.phase = .hdr)
    (ha : 4 ≤ s.avail) :
    ∃ t : State, ∀ m : Memory, exec i { s with cw := m } = .next { t with cw := m } := by
  rcases Bool.or_eq_true_iff.mp hi with hh | hc
  · obtain ⟨r, hr⟩ := exec_of_isHalting hh
    exact ⟨(s.advance 4).halt r, fun m => hr ▸ haltSegment_hdr (s := { s with cw := m }) he hp ha⟩
  · cases i with
    | num | alnum | byte | kanji =>
      exact ⟨latchMode _ (s.advance 4), fun m => countedSegment_hdr (s := { s with cw := m }) he hp ha⟩
    | _ => cases hc

/-- Every mode indicator is a segment's (R72). -/
theorem decodeMode_isSegment : ∀ q : Nibble, (decodeMode q).isSegment = true := by decide

/-- At the loop head, a mode indicator left, the decoder reads it and runs its segment (R93). -/
theorem decoderStep_hdr_eq (hp : s.phase = .hdr) (ha : 4 ≤ s.avail) :
    decoderStep s = withField 4 s fun v _ => exec (decodeMode (BitVec.ofNat 4 v)) s := by
  simp only [decoderStep, fetch, hp, fetchHeader, wMode, if_neg (Nat.not_lt.mpr ha), withField]
  cases readBits 4 s <;> rfl

/-- At the loop head without a mode indicator left, the decoder takes EXHAUST (R97). -/
theorem decoderStep_exhaust (hp : s.phase = .hdr) (ha : s.avail < 4) : decoderStep s = .next (s.halt .exhaust) := by
  simp only [decoderStep, fetch, hp, fetchHeader, wMode, if_pos ha]

/-- The loop head reads the mode indicator where one is left (R93). -/
theorem decoderStep_hdr_reads (he : s.decoderEnabled = true) (hp : s.phase = .hdr) :
    ReadsThenMoves decoderStep s s.readWidth := by
  simp only [State.readWidth, hp]
  split_ifs with ha
  · exact .still (s.halt .exhaust) fun m => decoderStep_exhaust (s := { s with cw := m }) hp ha
  · have ha : 4 ≤ s.avail := Nat.not_lt.mp ha
    choose move hmove using fun v => exec_hdr_next (decodeMode_isSegment (BitVec.ofNat 4 v)) he hp ha
    refine ⟨move, fun m => ?_⟩
    rw [decoderStep_hdr_eq (s := { s with cw := m }) hp ha]
    simp only [hmove, wMode]

/-- If `f` answers as `g` does at `s` with every RAM, it reads what `g` reads. -/
theorem ReadsThenMoves.congr {f g : State → Result} {n : Nat} (hg : ReadsThenMoves g s n)
    (h : ∀ m : Memory, f { s with cw := m } = g { s with cw := m }) : ReadsThenMoves f s n :=
  hg.imp fun _ hmove m => (h m).trans (hmove m)

/-- In CNT the decoder runs the latched mode's segment. -/
theorem decoderStep_cnt_eq (hp : s.phase = .cnt) : decoderStep s = exec (decodeMode s.mode) s := by
  simp only [decoderStep, fetch, hp]

/-- The decoder in CNT reads the latched mode's count field (R95). -/
theorem decoderStep_cnt_reads (he : s.decoderEnabled = true) (hp : s.phase = .cnt)
    (hm : s.mode = 1 ∨ s.mode = 2 ∨ s.mode = 4 ∨ s.mode = 8) : ReadsThenMoves decoderStep s s.readWidth := by
  have hcount : ∀ {q : Nibble} {w : Nat} {p : Phase} {body : State → Result}, s.mode = q →
      exec (decodeMode q) = countedSegment q w p body → ReadsThenMoves decoderStep s w := by
    intro q w p body hq hexec
    refine (countStep_reads w p).congr fun m => ?_
    subst hq
    rw [decoderStep_cnt_eq (s := { s with cw := m }) hp, hexec]
    exact countedSegment_cnt (s := { s with cw := m }) he hp rfl
  have hwidth : s.readWidth = s.countWidth := by simp only [State.readWidth, hp]
  rw [hwidth, State.countWidth]
  rcases hm with hq | hq | hq | hq <;>
    · simp only [hq]
      exact hcount hq rfl

/-- The decoder in a body phase makes that body's step (R92). -/
theorem decoderStep_body_reads {q : Nibble} {w n : Nat} {p : Phase} {body : State → Result} (he : s.decoderEnabled = true)
    (hp : s.phase = p) (hbody : ReadsThenMoves body s n) (hhdr : p ≠ .hdr := by decide) (hcnt : p ≠ .cnt := by decide)
    (hsegment : ∀ m : Memory, decoderStep { s with cw := m } = countedSegment q w p body { s with cw := m }) :
    ReadsThenMoves decoderStep s n :=
  hbody.congr fun m => (hsegment m).trans (countedSegment_body (s := { s with cw := m }) he hp hhdr hcnt)

/-- In CNT the latched mode is a supported one (R24, R94). -/
theorem State.Inv.cnt_mode (h : s.Inv) (hp : s.phase = .cnt) : s.mode = 1 ∨ s.mode = 2 ∨ s.mode = 4 ∨ s.mode = 8 := by
  obtain ⟨_, _, hne⟩ := (phaseOk_cnt hp).mp h.phase_ok
  have hlegal : ∀ q : Nibble, modeLegal q = true → q ≠ 0 → q = 1 ∨ q = 2 ∨ q = 4 ∨ q = 8 := by decide
  exact hlegal _ h.mode_legal hne

/-- An enabled decoder's step, phase by phase: it reads the field that the phase reads, and then answers a next state. -/
theorem decoderStep_reads (h : s.Inv) (he : s.decoderEnabled = true) : ReadsThenMoves decoderStep s s.readWidth := by
  cases hp : s.phase with
  | idle | done => simp [State.decoderEnabled, State.busy, hp] at he
  | hdr => exact decoderStep_hdr_reads he hp
  | cnt => exact decoderStep_cnt_reads he hp (h.cnt_mode hp)
  | num =>
    refine decoderStep_body_reads (q := 1) (w := 10) he hp (numBody_reads hp) (hsegment := fun m => ?_)
    simp only [decoderStep, fetch, hp]
    rfl
  | alnum =>
    refine decoderStep_body_reads (q := 2) (w := 9) he hp (alnumBody_reads hp) (hsegment := fun m => ?_)
    simp only [decoderStep, fetch, hp]
    rfl
  | byte =>
    refine decoderStep_body_reads (q := 4) (w := 8) he hp (byteBody_reads hp) (hsegment := fun m => ?_)
    simp only [decoderStep, fetch, hp]
    rfl
  | kanji =>
    refine decoderStep_body_reads (q := 8) (w := 8) he hp (kanjiBody_reads hp) (hsegment := fun m => ?_)
    simp only [decoderStep, fetch, hp]
    rfl

end

/-- Settles O12: the step is a read of the phase's field and then a next state, and a read faults at its first unloaded
byte. -/
theorem uninitReadExactly : Obligations.UninitReadExactly := by
  intro s hs he hgo hrst
  have hstep : step s = decoderStep s.dropEdge := by simp [step_eq, hrst, he, hgo]
  obtain ⟨move, hmove⟩ := decoderStep_reads (dropEdge_keeps_inv hs) (by simpa using he)
  have hread := hstep.trans (hmove s.cw)
  have hanswers : s.FieldLoaded s.readWidth → ∃ t, step s = .next t := fun hl =>
    ⟨_, hread.trans (withField_of_loaded _ hl)⟩
  refine ⟨fun hall => hanswers fun j hj => hall _ (s.readByte_lt hj), hanswers, fun hno => ?_⟩
  rcases withField_cases s.readWidth s.dropEdge fun v _ => .next { move v with cw := s.cw } with
    ⟨hl, _⟩ | ⟨j, hj, hunloaded, hfirst, hfault⟩
  · exact absurd hl hno
  · exact ⟨j, hj, hunloaded, hfirst, hread.trans hfault⟩

/-! ## What leaves the RAM alone -/

/-- A segment whose body keeps the RAM keeps it. -/
theorem countedSegment_cw {q : Nibble} {w : Nat} {p : Phase} {body : State → Result} {s t : State}
    (hbody : body s = .next t → t.cw = s.cw) (h : countedSegment q w p body s = .next t) : t.cw = s.cw := by
  rcases countedSegment_cases h with ⟨_, rfl⟩ | ⟨_, _, _, rfl⟩ | ⟨_, _, _, rfl⟩ | ⟨_, _, _, hc⟩ | ⟨_, _, _, _, hb⟩
  · rfl
  · rfl
  · rfl
  · obtain ⟨_, _, rfl⟩ := countStep_cases hc
    rfl
  · exact hbody hb

/-- No segment instruction writes the RAM (R53). -/
theorem exec_segment_cw {i : Instr} {s t : State} (hi : i.isSegment = true) (h : exec i s = .next t) : t.cw = s.cw := by
  rcases Bool.or_eq_true_iff.mp hi with hh | hc
  · obtain ⟨r, hr⟩ := exec_of_isHalting hh
    rcases haltSegment_cases (hr ▸ h) with ⟨_, rfl⟩ | ⟨_, _, _, rfl⟩ | ⟨_, _, _, rfl⟩ <;> rfl
  · cases i with
    | num =>
      refine countedSegment_cw (fun hb => ?_) h
      rcases numBody_cases hb with ⟨_, rfl⟩ | ⟨_, _, rfl⟩ | ⟨_, _, rfl⟩ | ⟨_, _, rfl⟩ <;> rfl
    | alnum =>
      refine countedSegment_cw (fun hb => ?_) h
      rcases alnumBody_cases hb with ⟨_, rfl⟩ | ⟨_, _, rfl⟩ | ⟨_, _, rfl⟩ <;> rfl
    | byte =>
      refine countedSegment_cw (fun hb => ?_) h
      rcases byteBody_cases hb with ⟨_, rfl⟩ | ⟨_, _, rfl⟩ | ⟨_, _, _, rfl⟩ <;> rfl
    | kanji => exact countedSegment_cw (fun hb => by cases hb; rfl) h
    | _ => cases hc

/-- No edge of a busy machine writes the RAM (R53, R164). -/
theorem step_cw_of_busy {s t : State} (hb : s.busy = true) (h : step s = .next t) : t.cw = s.cw := by
  rcases step_cases h with ⟨_, rfl⟩ | ⟨_, _, _, hm⟩ | ⟨_, _, _, rfl⟩ | ⟨_, _, rfl⟩
  · rfl
  · obtain ⟨_, hcw, _⟩ := hm.frame
    exact hcw
  · rfl
  · rw [afterStart_afterLoad_of_busy (by exact hb), afterPop_cw, State.dropEdge_cw]

/-- Settles O15: neither an edge of a busy machine nor a segment instruction writes the RAM at all. -/
theorem bufferImmutableWhileBusy : Obligations.BufferImmutableWhileBusy :=
  ⟨fun _ _ hb h _ => by rw [step_cw_of_busy hb h], fun _ _ _ hi h _ => by rw [exec_segment_cw hi h]⟩

/-! ## What the RAM at and above `L` cannot change -/

/-- RAMs that hold the same bytes read the same bits (R57, R66). -/
theorem readBitsLoop_congr {m m' : Memory} {v i k : Nat}
    (h : ∀ j, j < k → Memory.read m ((i + j) / 8) = Memory.read m' ((i + j) / 8)) :
    readBitsLoop m v i k = readBitsLoop m' v i k := by
  induction k generalizing v i with
  | zero => rfl
  | succ k ih =>
    have hbit : readBit m i = readBit m' i := by
      have hbyte := h 0 (Nat.succ_pos k)
      rw [Nat.add_zero] at hbyte
      simp only [readBit, hbyte]
    have hrest : ∀ v, readBitsLoop m v (i + 1) k = readBitsLoop m' v (i + 1) k := fun v =>
      ih fun j hj => by simpa only [Nat.add_assoc, Nat.add_comm 1 j] using h (j + 1) (Nat.succ_lt_succ hj)
    simp only [readBitsLoop, hbit, hrest]

/-- The answer with this RAM in its next state; a stop as it is. -/
def withRam (m : Memory) : Result → Result
  | .next t => .next { t with cw := m }
  | .fault f => .fault f
  | .refused r => .refused r

section
variable {s : State} {m : Memory}

/-- With a RAM that agrees below `L`, ReadBits answers the same value and next state, but for the RAM, or the same fault. -/
theorem readBits_withRam (n : Nat) (hm : ∀ a, a < s.L → Memory.read m a = Memory.read s.cw a) :
    readBits n { s with cw := m } = (readBits n s).map fun r => (r.1, { r.2 with cw := m }) := by
  have hloop : readBitsLoop m 0 s.cur (min n (State.avail { s with cw := m })) =
      readBitsLoop s.cw 0 s.cur (min n s.avail) :=
    readBitsLoop_congr fun _ hj => hm _ (s.readByte_lt hj)
  simp only [readBits, hloop]
  cases readBitsLoop s.cw 0 s.cur (min n s.avail) <;> rfl

/-- A step that reads a field and then moves answers the same with a RAM that agrees below `L`, but for the RAM. -/
theorem ReadsThenMoves.eq_withRam {f : State → Result} {n : Nat} (h : ReadsThenMoves f s n)
    (hm : ∀ a, a < s.L → Memory.read m a = Memory.read s.cw a) : f { s with cw := m } = withRam m (f s) := by
  obtain ⟨move, hmove⟩ := h
  have hown : f s = withField n s fun v _ => .next { move v with cw := s.cw } := hmove s.cw
  rw [hown, hmove m]
  simp only [withField, readBits_withRam n hm]
  cases readBits n s <;> rfl

/-- POP does the same with any RAM. -/
theorem afterPop_withRam (p : PortIn) : afterPop p { s with cw := m } = { afterPop p s with cw := m } := by
  unfold afterPop
  split <;> rfl

/-- A busy machine's step answers the same with a RAM that agrees below `L`, but for the RAM (R59). -/
theorem step_withRam (hs : s.Inv) (hb : s.busy = true) (hm : ∀ a, a < s.L → Memory.read m a = Memory.read s.cw a) :
    step { s with cw := m } = withRam m (step s) := by
  have hedge : State.nextEdge { s with cw := m } = s.nextEdge := rfl
  have henabled : State.decoderEnabled { s with cw := m } = s.decoderEnabled := rfl
  have hdrop : State.dropEdge { s with cw := m } = { s.dropEdge with cw := m } := rfl
  rw [step_eq s, step_eq { s with cw := m }, hedge, henabled, hdrop]
  split_ifs with hr he hgo
  · rfl
  · exact (decoderStep_reads (dropEdge_keeps_inv hs) he).eq_withRam hm
  · rfl
  · rw [afterStart_afterLoad_of_busy (s := s.dropEdge) hb,
      afterStart_afterLoad_of_busy (s := { s.dropEdge with cw := m }) hb, afterPop_withRam]
    rfl

end

/-- Settles O16: `step_withRam`, read off for a next state and for a fault. -/
theorem bytesAboveLengthIrrelevant : Obligations.BytesAboveLengthIrrelevant := by
  intro s m hs hb hm
  have hstep := step_withRam hs hb hm
  exact ⟨fun t h => by rw [hstep, h]; rfl, fun f h => by rw [hstep, h]; rfl⟩

end Sys2Proof.Machine
end

section
/-! PROOFS. The encoding family: words and table words decode as the map of modes lists them (O21, O22), and the reference
function reads back the segments an assembled program was written from (O57). -/

namespace Sys2Proof.Machine

/-! ## Fields and their bits -/

@[simp] theorem bitsOf_length (w v : Nat) : (bitsOf w v).length = w := by simp [bitsOf]

/-- One more bit is shifted in from the right (R55). -/
theorem bitsVal_concat (bs : List Bool) (b : Bool) : bitsVal (bs ++ [b]) = 2 * bitsVal bs + b.toNat := by
  simp [bitsVal]

/-- The upper bits of a field come first (R71). -/
theorem bitsOf_add (w n v : Nat) : bitsOf (w + n) v = bitsOf w (v / 2 ^ n) ++ bitsOf n v := by
  simp only [bitsOf, Nat.add_comm w n, List.range_add, List.reverse_append, List.map_append, ← List.map_reverse,
    List.map_map, List.append_cancel_right_eq]
  exact List.map_congr_left fun j _ => by simp [Nat.testBit_div_two_pow, Nat.add_comm]

theorem bitsOf_succ (w v : Nat) : bitsOf (w + 1) v = bitsOf w (v / 2) ++ [v.testBit 0] := bitsOf_add w 1 v

/-- The bits of a field have its value. -/
theorem bitsVal_bitsOf {w v : Nat} (h : v < 2 ^ w) : bitsVal (bitsOf w v) = v := by
  induction w generalizing v with
  | zero => exact (Nat.lt_one_iff.mp h).symm
  | succ w ih =>
    rw [bitsOf_succ, bitsVal_concat, ih (by rw [Nat.pow_succ] at h; omega), Nat.toNat_testBit, Nat.pow_zero,
      Nat.div_one, Nat.div_add_mod]

/-- Bits are the field of their value. -/
theorem bitsOf_bitsVal (bs : List Bool) : bitsOf bs.length (bitsVal bs) = bs := by
  induction bs using List.reverseRecOn with
  | nil => rfl
  | append_singleton bs b ih =>
    have hdiv : (2 * bitsVal bs + b.toNat) / 2 = bitsVal bs := by have := b.toNat_lt; omega
    have hbit : (2 * bitsVal bs + b.toNat).testBit 0 = b := by cases b <;> simp
    rw [List.length_append, List.length_singleton, bitsOf_succ, bitsVal_concat, hdiv, hbit, ih]

/-- Bits have a value that fits their number. -/
theorem bitsVal_lt (bs : List Bool) : bitsVal bs < 2 ^ bs.length := by
  induction bs using List.reverseRecOn with
  | nil => decide
  | append_singleton bs b ih =>
    have := b.toNat_le
    rw [bitsVal_concat, List.length_append, List.length_singleton, Nat.pow_succ]
    omega

/-! ## The stream of a buffer -/

@[simp] theorem streamBits_cons (b : Byte) (buf : List Byte) : streamBits (b :: buf) = bitsOf 8 b.toNat ++ streamBits buf :=
  List.flatMap_cons

@[simp] theorem streamBits_length (buf : List Byte) : (streamBits buf).length = 8 * buf.length := by
  induction buf with
  | nil => rfl
  | cons b buf ih => simp [ih]; omega

/-- Up to 8 bits and zeros after them are a byte's (R82). -/
theorem prefix_bitsOf_byte {bs : List Bool} {n : Nat} (h : bs.length + n = 8) :
    bs <+: bitsOf 8 (BitVec.ofNat 8 (bitsVal bs * 2 ^ n)).toNat := by
  have hlt : bitsVal bs * 2 ^ n < 2 ^ 8 := by
    rw [← h, Nat.pow_add]
    exact Nat.mul_lt_mul_of_pos_right (bitsVal_lt bs) (Nat.two_pow_pos n)
  rw [BitVec.toNat_ofNat, Nat.mod_eq_of_lt hlt, ← h, bitsOf_add, Nat.mul_div_cancel _ (Nat.two_pow_pos n), bitsOf_bitsVal]
  exact List.prefix_append ..

/-- Cutting a stream into bytes keeps it, zeros after it apart (R82). -/
theorem prefix_streamBits_packBits (bs : List Bool) : bs <+: streamBits (packBits bs) := by
  induction bs using packBits.induct with
  | case1 => exact List.nil_prefix
  | case2 b0 b1 b2 b3 b4 b5 b6 b7 bs ih =>
    have hbyte := (prefix_bitsOf_byte (bs := [b0, b1, b2, b3, b4, b5, b6, b7]) (n := 0) rfl).eq_of_length rfl
    rw [Nat.pow_zero, Nat.mul_one] at hbyte
    rw [packBits, streamBits_cons, ← hbyte]
    exact (List.prefix_append_right_inj [b0, b1, b2, b3, b4, b5, b6, b7]).mpr ih
  | case3 b bs hshort =>
    have hlen : bs.length < 7 := by
      match bs with
      | b1 :: b2 :: b3 :: b4 :: b5 :: b6 :: b7 :: bs => exact (hshort b1 b2 b3 b4 b5 b6 b7 bs rfl).elim
      | [] | [_] | [_, _] | [_, _, _] | [_, _, _, _] | [_, _, _, _, _] | [_, _, _, _, _, _] => simp
    rw [packBits, streamBits_cons]
    · exact (prefix_bitsOf_byte (by rw [List.length_cons]; omega)).trans (List.prefix_append ..)
    · exact hshort

/-- These bits stand in the buffer from stream bit `cur` on (R57). -/
def BitsAt (buf : List Byte) (cur : Nat) (bs : List Bool) : Prop :=
  ∃ before after, before.length = cur ∧ streamBits buf = before ++ (bs ++ after)

theorem bitsAt_zero_of_prefix {buf : List Byte} {bs : List Bool} (h : bs <+: streamBits buf) : BitsAt buf 0 bs := by
  obtain ⟨after, hafter⟩ := h
  exact ⟨[], after, rfl, hafter.symm⟩

section
variable {buf : List Byte} {cur : Nat}

theorem BitsAt.of_append {xs ys : List Bool} (h : BitsAt buf cur (xs ++ ys)) :
    BitsAt buf cur xs ∧ BitsAt buf (cur + xs.length) ys := by
  obtain ⟨before, after, rfl, hs⟩ := h
  exact ⟨⟨before, ys ++ after, rfl, by simp [hs]⟩, before ++ xs, after, by simp, by simp [hs]⟩

theorem BitsAt.end_le {bs : List Bool} (h : BitsAt buf cur bs) : cur + bs.length ≤ 8 * buf.length := by
  obtain ⟨before, after, rfl, hs⟩ := h
  have hlen := congrArg List.length hs
  simp only [streamBits_length, List.length_append] at hlen
  omega

/-- A stream bit is its byte's bit, the most significant first (R57). -/
theorem refBit_eq_streamBits (buf : List Byte) (i : Nat) : refBit buf i = ((streamBits buf).getD i false).toNat := by
  induction buf generalizing i with
  | nil => simp [refBit]
  | cons b buf ih =>
    rw [streamBits_cons]
    by_cases hi : i < 8
    · rw [List.getD_append _ _ _ _ (by simpa using hi)]
      have h8 : i / 8 = 0 ∧ i % 8 = i := by omega
      simp [refBit, h8, bitsOf, hi, Nat.toNat_testBit]
    · rw [List.getD_append_right _ _ _ _ (by simpa using hi), bitsOf_length, ← ih]
      have h8 : i / 8 = (i - 8) / 8 + 1 ∧ i % 8 = (i - 8) % 8 := by omega
      simp [refBit, h8]

/-- The loop of ReadBits shifts the bits it stands on into its value (R55). -/
theorem refBits_eq_foldl {v : Nat} {bs : List Bool} (h : BitsAt buf cur bs) :
    refBits buf v cur bs.length = bs.foldl (fun v b => 2 * v + b.toNat) v := by
  induction bs generalizing v cur with
  | nil => rfl
  | cons b bs ih =>
    obtain ⟨hb, hbs⟩ := h.of_append (xs := [b])
    have hbit : refBit buf cur = b.toNat := by
      obtain ⟨before, after, rfl, hs⟩ := hb
      simp [refBit_eq_streamBits, hs]
    rw [List.length_cons, refBits, hbit, List.foldl_cons]
    exact ih hbs

/-- Where a field stands, it is read whole (R55, R56). -/
theorem BitsAt.refRead_eq {w v : Nat} (h : BitsAt buf cur (bitsOf w v)) (hv : v < 2 ^ w) :
    refRead buf cur w = (v, cur + w) := by
  have hw : min w (refAvail buf cur) = w := by
    have hend := h.end_le
    rw [bitsOf_length] at hend
    exact Nat.min_eq_left (Nat.le_sub_of_add_le' hend)
  have hbits := refBits_eq_foldl (v := 0) h
  rw [bitsOf_length] at hbits
  rw [refRead, hw, hbits]
  exact congrArg (·, cur + w) (bitsVal_bitsOf hv)

end

/-! ## The bits of base statements -/

/-- A base statement that writes one field, its value in the field's range, wherever it stands (R82). -/
def isFittingField : Stmt → Bool
  | .mode _ => true
  | .field w v => decide (v < 2 ^ w)
  | .align | .bytes _ => false

/-- The bits of a statement that writes one field. -/
def fieldBits : Stmt → List Bool
  | .mode m => bitsOf wMode m.toNat
  | .field w v => bitsOf w v
  | .align | .bytes _ => []

theorem field_fits {w v n : Nat} (hv : v ≤ n) (hn : n < 2 ^ w) : isFittingField (.field w v) = true :=
  decide_eq_true (hv.trans_lt hn)

theorem stmtBits_of_isFittingField {st : Stmt} (h : isFittingField st = true) (pos : Nat) :
    stmtBits pos st = some (fieldBits st) := by
  cases st with
  | mode m => rfl
  | field w v => exact if_pos (of_decide_eq_true h)
  | align | bytes bs => cases h

/-- Statements that write fields write them one after the other. -/
theorem stmtsBits_of_isFittingField {sts : List Stmt} (h : ∀ st ∈ sts, isFittingField st = true) (acc : List Bool) :
    stmtsBits acc sts = some (acc ++ sts.flatMap fieldBits) := by
  induction sts generalizing acc with
  | nil => simp [stmtsBits]
  | cons st sts ih =>
    obtain ⟨hst, hsts⟩ := List.forall_mem_cons.mp h
    simp [stmtsBits, stmtBits_of_isFittingField hst, ih hsts]

/-- The assembler only adds to the stream. -/
theorem prefix_of_stmtsBits {acc out : List Bool} {sts : List Stmt} (h : stmtsBits acc sts = some out) : acc <+: out := by
  induction sts generalizing acc with
  | nil => cases h; exact List.prefix_rfl
  | cons st sts ih =>
    simp only [stmtsBits] at h
    split at h
    · exact (List.prefix_append ..).trans (ih h)
    · cases h

theorem prefix_of_lineBits {acc out : List Bool} {l : AsmLine} (h : lineBits acc l = some out) : acc <+: out := by
  cases l with
  | base st => exact prefix_of_stmtsBits h
  | pseudo p =>
    simp only [lineBits] at h
    split at h
    · exact prefix_of_stmtsBits h
    · cases h

theorem prefix_of_linesBits {acc out : List Bool} {ls : List AsmLine} (h : linesBits acc ls = some out) : acc <+: out := by
  induction ls generalizing acc with
  | nil => cases h; exact List.prefix_rfl
  | cons l ls ih =>
    simp only [linesBits] at h
    split at h
    · rename_i hl
      exact (prefix_of_lineBits hl).trans (ih h)
    · cases h

/-! ## The bits of segments -/

section
variable {b : Byte}

theorem digitVal_le (h : isDigit b = true) : digitVal b ≤ 9 := by
  simp only [isDigit, Bool.and_eq_true, decide_eq_true_eq] at h
  unfold digitVal
  omega

theorem digit_digitVal (h : isDigit b = true) : digit (digitVal b) = b := by
  simp only [isDigit, Bool.and_eq_true, decide_eq_true_eq] at h
  rw [digit, digitVal, Nat.add_sub_of_le h.1, BitVec.ofNat_toNat, BitVec.setWidth_eq]

theorem antIdx_lt (h : ant.contains b = true) : antIdx b < 45 :=
  List.findIdx_lt_length_of_exists ⟨b, List.contains_iff_mem.mp h, beq_self_eq_true b⟩

theorem antBytes_antIdx (h : ant.contains b = true) : antBytes (antIdx b) = [b] := by
  have hlt := antIdx_lt h
  have hget : ant[antIdx b] = b := eq_of_beq (List.findIdx_getElem (w := hlt))
  rw [antBytes, if_pos hlt, List.getD_eq_getElem _ _ hlt, hget]

end

section
variable {a b c : Nat}

/-- Three digits are the bytes of their group's value (R113). -/
theorem tripleBytes_of_digits (hb : b ≤ 9) (hc : c ≤ 9) :
    tripleBytes (100 * a + 10 * b + c) = [digit a, digit b, digit c] := by
  rw [tripleBytes, show (100 * a + 10 * b + c) / 100 = a by omega, show (100 * a + 10 * b + c) / 10 % 10 = b by omega,
    show (100 * a + 10 * b + c) % 10 = c by omega]

/-- Two digits are the bytes of their group's value (R114). -/
theorem pairBytes_of_digits (hb : b ≤ 9) : pairBytes (10 * a + b) = [digit a, digit b] := by
  rw [pairBytes, show (10 * a + b) / 10 = a by omega, show (10 * a + b) % 10 = b by omega]

/-- Two indices are those of their pair's value (R128). -/
theorem antPairBytes_of_indices (hb : b < 45) : antPairBytes (45 * a + b) = antBytes a ++ antBytes b := by
  rw [antPairBytes, show (45 * a + b) / 45 = a by omega, show (45 * a + b) % 45 = b by omega]

end

theorem numGroups_fit {ds : List Byte} (h : ∀ d ∈ ds, isDigit d = true) :
    ∀ st ∈ numGroups ds, isFittingField st = true := by
  induction ds using numGroups.induct with
  | case1 d1 d2 d3 ds ih =>
    simp only [List.forall_mem_cons] at h
    obtain ⟨h1, h2, h3, hds⟩ := h
    have := digitVal_le h1
    have := digitVal_le h2
    have := digitVal_le h3
    exact List.forall_mem_cons.mpr ⟨field_fits (n := 999) (by omega) (by decide), ih hds⟩
  | case2 d1 d2 =>
    simp only [List.forall_mem_cons] at h
    obtain ⟨h1, h2, -⟩ := h
    have := digitVal_le h1
    have := digitVal_le h2
    exact List.forall_mem_singleton.mpr (field_fits (n := 99) (by omega) (by decide))
  | case3 d1 =>
    have := digitVal_le (h d1 (List.mem_singleton_self d1))
    exact List.forall_mem_singleton.mpr (field_fits (n := 9) this (by decide))
  | case4 => exact List.forall_mem_nil _

theorem alnumGroups_fit {s : List Byte} (h : ∀ c ∈ s, ant.contains c = true) :
    ∀ st ∈ alnumGroups s, isFittingField st = true := by
  induction s using alnumGroups.induct with
  | case1 c1 c2 s ih =>
    simp only [List.forall_mem_cons] at h
    obtain ⟨h1, h2, hs⟩ := h
    have := antIdx_lt h1
    have := antIdx_lt h2
    exact List.forall_mem_cons.mpr ⟨field_fits (n := 2024) (by omega) (by decide), ih hs⟩
  | case2 c1 =>
    have := antIdx_lt (h c1 (List.mem_singleton_self c1))
    exact List.forall_mem_singleton.mpr (field_fits (n := 44) (by omega) (by decide))
  | case3 => exact List.forall_mem_nil _

/-- A counted segment's fields fit when its count and its body's fields do. -/
theorem counted_fit {m : Nibble} {w v n : Nat} {sts : List Stmt} (hv : v ≤ n) (hn : n < 2 ^ w)
    (h : ∀ st ∈ sts, isFittingField st = true) : ∀ st ∈ .mode m :: .field w v :: sts, isFittingField st = true :=
  List.forall_mem_cons.mpr ⟨rfl, List.forall_mem_cons.mpr ⟨field_fits hv hn, h⟩⟩

/-- The fields of a well-formed segment or of the terminator fit (R83). -/
theorem expand_fit {p : Pseudo} (hp : isSegment p = true ∨ p = .term) (hwf : pseudoWf p = true) (pos : Nat) :
    ∀ st ∈ expand pos p, isFittingField st = true := by
  cases p with
  | num ds =>
    simp only [pseudoWf, Bool.and_eq_true, decide_eq_true_eq, List.all_eq_true] at hwf
    exact counted_fit hwf.1 (by decide) (numGroups_fit hwf.2)
  | alnum s =>
    simp only [pseudoWf, Bool.and_eq_true, decide_eq_true_eq, List.all_eq_true] at hwf
    exact counted_fit hwf.1 (by decide) (alnumGroups_fit hwf.2)
  | byte bs =>
    exact counted_fit (of_decide_eq_true hwf) (by decide) (List.forall_mem_map.mpr fun b _ => decide_eq_true b.isLt)
  | kanjiZeros c =>
    exact counted_fit (of_decide_eq_true hwf) (by decide) fun st hst => List.eq_of_mem_replicate hst ▸ rfl
  | kanji vs =>
    exact counted_fit (of_decide_eq_true hwf) (by decide) (List.forall_mem_map.mpr fun v _ => decide_eq_true v.isLt)
  | term => exact List.forall_mem_singleton.mpr rfl
  | padCw n => rcases hp with hp | hp <;> cases hp

/-- The bits of a segment or of the terminator, which do not depend on where it stands. -/
def segmentBits (p : Pseudo) : List Bool := (expand 0 p).flatMap fieldBits

/-- Only padding depends on where it stands. -/
theorem expand_eq_expand_zero {p : Pseudo} (hp : isSegment p = true ∨ p = .term) (pos : Nat) : expand pos p = expand 0 p := by
  cases p with
  | padCw n => rcases hp with hp | hp <;> cases hp
  | _ => rfl

theorem lineBits_segment {p : Pseudo} (hp : isSegment p = true ∨ p = .term) (hwf : pseudoWf p = true) (acc : List Bool) :
    lineBits acc (.pseudo p) = some (acc ++ segmentBits p) := by
  rw [lineBits, if_pos hwf, stmtsBits_of_isFittingField (expand_fit hp hwf _), expand_eq_expand_zero hp, segmentBits]

/-- A program that opens with segments has their bits first (R70). -/
theorem linesBits_segments {ps : List Pseudo} (hps : ∀ p ∈ ps, isSegment p = true ∧ pseudoWf p = true) (acc : List Bool)
    (ls : List AsmLine) :
    linesBits acc (ps.map AsmLine.pseudo ++ ls) = linesBits (acc ++ ps.flatMap segmentBits) ls := by
  induction ps generalizing acc with
  | nil => simp
  | cons p ps ih =>
    obtain ⟨⟨hp, hwf⟩, hps⟩ := List.forall_mem_cons.mp hps
    simp [linesBits, lineBits_segment (.inl hp) hwf, ih hps]

/-- The stream of whole segments, the terminator and `rest` is that of `rest` after their bits. -/
theorem linesBits_program {ps : List Pseudo} (hps : ∀ p ∈ ps, isSegment p = true ∧ pseudoWf p = true) (rest : List AsmLine) :
    linesBits [] (ps.map AsmLine.pseudo ++ .pseudo .term :: rest) =
      linesBits (ps.flatMap segmentBits ++ segmentBits .term) rest := by
  rw [linesBits_segments hps, linesBits, lineBits_segment (.inr rfl) rfl, List.nil_append]

/-! ## Reading segments back -/

/-- The number of bits that statements write as fields. -/
def fieldsWidth (sts : List Stmt) : Nat := (sts.flatMap fieldBits).length

@[simp] theorem fieldsWidth_nil : fieldsWidth [] = 0 := rfl

@[simp] theorem fieldsWidth_mode (m : Nibble) (sts : List Stmt) : fieldsWidth (.mode m :: sts) = 4 + fieldsWidth sts := by
  simp [fieldsWidth, fieldBits]

@[simp] theorem fieldsWidth_field (w v : Nat) (sts : List Stmt) : fieldsWidth (.field w v :: sts) = w + fieldsWidth sts := by
  simp [fieldsWidth, fieldBits]

/-- From `cur` on the buffer holds the fields of these statements (R71). -/
def FieldsAt (buf : List Byte) (cur : Nat) (sts : List Stmt) : Prop :=
  (∀ st ∈ sts, isFittingField st = true) ∧ BitsAt buf cur (sts.flatMap fieldBits)

section
variable {buf : List Byte} {cur : Nat} {sts : List Stmt}

theorem FieldsAt.end_le (h : FieldsAt buf cur sts) : cur + fieldsWidth sts ≤ 8 * buf.length := h.2.end_le

theorem FieldsAt.width_le (h : FieldsAt buf cur sts) : fieldsWidth sts ≤ refAvail buf cur :=
  Nat.le_sub_of_add_le' h.end_le

/-- A field is read whole, and the fields after it stand behind it. -/
theorem FieldsAt.field_cons {w v : Nat} (h : FieldsAt buf cur (.field w v :: sts)) :
    refRead buf cur w = (v, cur + w) ∧ FieldsAt buf (cur + w) sts := by
  obtain ⟨hfit, hbits⟩ := h
  obtain ⟨hv, hfits⟩ := List.forall_mem_cons.mp hfit
  obtain ⟨hread, hrest⟩ := BitsAt.of_append (xs := bitsOf w v) hbits
  rw [bitsOf_length] at hrest
  exact ⟨hread.refRead_eq (of_decide_eq_true hv), hfits, hrest⟩

/-- Where a mode indicator stands, the loop reads it and goes on with its segment (R90). -/
theorem FieldsAt.mode_cons {m : Nibble} (h : FieldsAt buf cur (.mode m :: sts)) (fuel : Nat) :
    refLoop buf (fuel + 1) cur = refSegment buf m.toNat (cur + 4) (refLoop buf fuel) ∧ FieldsAt buf (cur + 4) sts := by
  have havail : 4 ≤ refAvail buf cur := le_trans (by simp) h.width_le
  obtain ⟨hread, hrest⟩ := FieldsAt.field_cons (w := 4) (v := m.toNat)
    ⟨List.forall_mem_cons.mpr ⟨decide_eq_true m.isLt, (List.forall_mem_cons.mp h.1).2⟩, h.2⟩
  exact ⟨by rw [refLoop, if_neg (Nat.not_lt.mpr havail), hread], hrest⟩

/-- The Numeric body reads the digits back (R73). -/
theorem refNum_numGroups {ds : List Byte} (hds : ∀ d ∈ ds, isDigit d = true) (h : FieldsAt buf cur (numGroups ds)) :
    refNum buf ds.length cur = (ds, cur + fieldsWidth (numGroups ds)) := by
  induction ds using numGroups.induct generalizing cur with
  | case1 d1 d2 d3 ds ih =>
    simp only [List.forall_mem_cons] at hds
    obtain ⟨h1, h2, h3, hds⟩ := hds
    obtain ⟨hread, hrest⟩ := h.field_cons
    simp [refNum, hread, ih hds hrest, tripleBytes_of_digits (digitVal_le h2) (digitVal_le h3),
      digit_digitVal h1, digit_digitVal h2, digit_digitVal h3, numGroups, ← Nat.add_assoc]
  | case2 d1 d2 =>
    simp only [List.forall_mem_cons] at hds
    obtain ⟨h1, h2, -⟩ := hds
    simp [refNum, h.field_cons.1, pairBytes_of_digits (digitVal_le h2), digit_digitVal h1, digit_digitVal h2, numGroups]
  | case3 d1 =>
    have h1 := hds d1 (List.mem_singleton_self d1)
    simp [refNum, h.field_cons.1, digit_digitVal h1, numGroups]
  | case4 => rfl

/-- The Alphanumeric body reads the characters back (R74). -/
theorem refAlnum_alnumGroups {s : List Byte} (hs : ∀ c ∈ s, ant.contains c = true) (h : FieldsAt buf cur (alnumGroups s)) :
    refAlnum buf s.length cur = (s, cur + fieldsWidth (alnumGroups s)) := by
  induction s using alnumGroups.induct generalizing cur with
  | case1 c1 c2 s ih =>
    simp only [List.forall_mem_cons] at hs
    obtain ⟨h1, h2, hs⟩ := hs
    obtain ⟨hread, hrest⟩ := h.field_cons
    simp [refAlnum, hread, ih hs hrest, antPairBytes_of_indices (antIdx_lt h2), antBytes_antIdx h1, antBytes_antIdx h2,
      alnumGroups, ← Nat.add_assoc]
  | case2 c1 =>
    have h1 := hs c1 (List.mem_singleton_self c1)
    simp [refAlnum, h.field_cons.1, antBytes_antIdx h1, alnumGroups]
  | case3 => rfl

/-- The Byte body reads the bytes back (R75). -/
theorem refByte_fields {bs : List Byte} (h : FieldsAt buf cur (bs.map fun b => .field wByte b.toNat)) :
    refByte buf bs.length cur = (bs, cur + fieldsWidth (bs.map fun b => .field wByte b.toNat)) := by
  induction bs generalizing cur with
  | nil => rfl
  | cons b bs ih =>
    obtain ⟨hread, hrest⟩ := h.field_cons
    have havail : 8 ≤ refAvail buf cur := le_trans (by simp) h.width_le
    simp [refByte, Nat.not_lt.mpr havail, hread, ih hrest, ← Nat.add_assoc]

/-- The Kanji skip passes over the payload's bits, which the buffer holds whole (R76). -/
theorem refKanji_fields {c : Nat} (hc : fieldsWidth sts = 13 * c) (h : FieldsAt buf cur sts) :
    refKanji buf c cur = ([], cur + fieldsWidth sts) := by
  rw [refKanji, wKanji, ← hc, Nat.min_eq_left h.end_le]

/-- A turn of the loop at a counted segment, whose count and body answer `bytes` and go on behind the segment's fields. -/
theorem FieldsAt.refLoop_counted {m : Nibble} {w v : Nat} {bytes : List Byte}
    (h : FieldsAt buf cur (.mode m :: .field w v :: sts))
    (hseg : refRead buf (cur + 4) w = (v, cur + 4 + w) → FieldsAt buf (cur + 4 + w) sts →
      ∀ rest, refSegment buf m.toNat (cur + 4) rest = refThen (bytes, cur + 4 + w + fieldsWidth sts) rest) (fuel : Nat) :
    refLoop buf (fuel + 1) cur =
      refThen (bytes, cur + fieldsWidth (.mode m :: .field w v :: sts)) (refLoop buf fuel) := by
  obtain ⟨hloop, hcount⟩ := h.mode_cons fuel
  obtain ⟨hread, hbody⟩ := hcount.field_cons
  rw [hloop, hseg hread hbody, fieldsWidth_mode, fieldsWidth_field, ← Nat.add_assoc, ← Nat.add_assoc]

/-- A turn of the loop at a segment reads its payload back and goes on behind its fields (R102). -/
theorem refLoop_segment {p : Pseudo} (hp : isSegment p = true) (hwf : pseudoWf p = true)
    (h : FieldsAt buf cur (expand 0 p)) (fuel : Nat) :
    refLoop buf (fuel + 1) cur = refThen (payload p, cur + fieldsWidth (expand 0 p)) (refLoop buf fuel) := by
  cases p with
  | num ds =>
    simp only [pseudoWf, Bool.and_eq_true, List.all_eq_true] at hwf
    refine h.refLoop_counted (fun hread hbody rest => ?_) fuel
    simp [refSegment, hread, refNum_numGroups hwf.2 hbody, payload]
  | alnum s =>
    simp only [pseudoWf, Bool.and_eq_true, List.all_eq_true] at hwf
    refine h.refLoop_counted (fun hread hbody rest => ?_) fuel
    simp [refSegment, hread, refAlnum_alnumGroups hwf.2 hbody, payload]
  | byte bs =>
    refine h.refLoop_counted (fun hread hbody rest => ?_) fuel
    simp [refSegment, hread, refByte_fields hbody, payload]
  | kanjiZeros c =>
    have hc : fieldsWidth (List.replicate c (.field wKanji 0)) = 13 * c := by
      simp [fieldsWidth, fieldBits, Nat.mul_comm]
    refine h.refLoop_counted (fun hread hbody rest => ?_) fuel
    simp [refSegment, hread, refKanji_fields hc hbody, payload]
  | kanji vs =>
    have hc : fieldsWidth (vs.map fun v => .field wKanji v.toNat) = 13 * vs.length := by
      simp [fieldsWidth, fieldBits, List.flatMap_map, Nat.mul_comm]
    refine h.refLoop_counted (fun hread hbody rest => ?_) fuel
    simp [refSegment, hread, refKanji_fields hc hbody, payload]
  | term | padCw => cases hp

/-- A segment is at least its mode indicator. -/
theorem four_le_fieldsWidth_expand {p : Pseudo} (hp : isSegment p = true) : 4 ≤ fieldsWidth (expand 0 p) := by
  cases p with
  | term | padCw n => cases hp
  | _ => simp [expand]

/-- The loop reads segments back in order and halts at the terminator, whatever stands after it (R77, R102). -/
theorem refLoop_program {ps : List Pseudo} (hps : ∀ p ∈ ps, isSegment p = true ∧ pseudoWf p = true)
    (h : BitsAt buf cur (ps.flatMap segmentBits ++ segmentBits .term)) {fuel : Nat} (hfuel : refAvail buf cur < 4 * fuel) :
    refLoop buf fuel cur = (ps.flatMap payload, .term) := by
  induction ps generalizing cur fuel with
  | nil =>
    obtain ⟨fuel, rfl⟩ := Nat.exists_eq_succ_of_ne_zero (show fuel ≠ 0 by omega)
    have hterm : FieldsAt buf cur (expand 0 .term) := ⟨expand_fit (.inr rfl) rfl 0, h⟩
    rw [(hterm.mode_cons fuel).1]
    rfl
  | cons p ps ih =>
    obtain ⟨fuel, rfl⟩ := Nat.exists_eq_succ_of_ne_zero (show fuel ≠ 0 by omega)
    obtain ⟨⟨hp, hwf⟩, hps⟩ := List.forall_mem_cons.mp hps
    rw [List.flatMap_cons, List.append_assoc] at h
    obtain ⟨hseg, hrest⟩ := h.of_append
    have hfields : FieldsAt buf cur (expand 0 p) := ⟨expand_fit (.inl hp) hwf 0, hseg⟩
    have hwidth := four_le_fieldsWidth_expand hp
    have hend := hfields.end_le
    have hleft : refAvail buf (cur + fieldsWidth (expand 0 p)) < 4 * fuel := by unfold refAvail at *; omega
    have hloop : refLoop buf fuel (cur + fieldsWidth (expand 0 p)) = (ps.flatMap payload, .term) := ih hps hrest hleft
    rw [refLoop_segment hp hwf hfields, refThen, hloop, List.flatMap_cons]

end

/-- Settles O57: the assembled bytes hold the program's bits (`linesBits_program`, `prefix_streamBits_packBits`), and the loop
reads them back (`refLoop_program`). -/
theorem assembledProgramDecodes : Obligations.AssembledProgramDecodes := by
  refine ⟨fun ps rest buf hps hasm => ?_, fun ps hps => ?_⟩
  · obtain ⟨bits, hbits, rfl⟩ := Option.map_eq_some_iff.mp hasm
    rw [linesBits_program hps] at hbits
    have hat := bitsAt_zero_of_prefix ((prefix_of_linesBits hbits).trans (prefix_streamBits_packBits bits))
    exact refLoop_program hps hat (by unfold refAvail; omega)
  · exact ⟨_, congrArg (Option.map packBits) (linesBits_program hps [])⟩

/-! ## Words and table words -/

/-- Settles O22: each word computes. -/
theorem wordsDecodeAsListed : Obligations.WordsDecodeAsListed :=
  ⟨rfl, rfl, rfl, rfl, rfl, rfl, rfl, rfl, rfl, rfl, rfl, rfl⟩

/-- A run of writes leaves the bytes below it. -/
theorem Memory.read_writeFrom_of_lt {a a' : Nat} (h : a' < a) (m : Memory) (bs : List Byte) :
    Memory.read (Memory.writeFrom m a bs) a' = Memory.read m a' := by
  induction bs generalizing m a with
  | nil => rfl
  | cons b bs ih => rw [Memory.writeFrom, ih (by omega), Memory.read_write_ne m b (by omega)]

/-- The first byte of a mode indicator's table word is its nibble and four zeros. -/
theorem tableBytes_mode : ∀ m : Nibble, tableBytes 4 m.toNat = [BitVec.ofNat 8 (m.toNat * 2 ^ 4), 0] := by decide

theorem decodeTableWord_mode : ∀ m : Nibble, decodeTableWord 4 m.toNat = some (decodeMode m) := by decide

/-- A buffer of at least one byte begins with byte 0 of the RAM. -/
theorem State.buffer_eq_cons {s : State} {b : Byte} (hL : 0 < s.L) (hread : Memory.read s.cw 0 = some b) :
    ∃ bs, s.buffer = b :: bs := by
  obtain ⟨n, hn⟩ := Nat.exists_eq_succ_of_ne_zero hL.ne'
  rw [State.buffer, hn, List.range_succ_eq_map, List.map_cons, hread]
  exact ⟨_, rfl⟩

section
variable {s : State} (m : Nibble)

/-- Byte 0 of the RAM with a mode indicator's table word placed. -/
theorem read_withFetchWord (h : 1 ≤ s.cwDepth) :
    Memory.read (s.withFetchWord 4 m.toNat).cw 0 = some (BitVec.ofNat 8 (m.toNat * 2 ^ 4)) := by
  obtain ⟨n, hn⟩ := Nat.exists_eq_succ_of_ne_zero (Nat.one_le_iff_ne_zero.mp h)
  rw [State.withFetchWord, placeFetchWord, tableBytes_mode, hn, List.take_succ_cons, Memory.writeFrom,
    Memory.read_writeFrom_of_lt Nat.zero_lt_one, Memory.read_write_same]

theorem withFetchWord_L_pos (h : 1 ≤ s.cwDepth) : 0 < (s.withFetchWord 4 m.toNat).L :=
  Nat.lt_min.mpr ⟨by rw [tableBytes_mode]; exact Nat.zero_lt_succ _, h⟩

/-- The four bits at the cursor are the placed mode indicator. -/
theorem field_withFetchWord (h : 1 ≤ s.cwDepth) : (s.withFetchWord 4 m.toNat).field 4 = m.toNat := by
  obtain ⟨bs, hbuf⟩ := State.buffer_eq_cons (withFetchWord_L_pos m h) (read_withFetchWord m h)
  have hbits := prefix_bitsOf_byte (bs := bitsOf 4 m.toNat) (n := 4) (by simp)
  rw [bitsVal_bitsOf m.isLt] at hbits
  have hat : BitsAt (s.withFetchWord 4 m.toNat).buffer 0 (bitsOf 4 m.toNat) := by
    rw [hbuf]
    exact bitsAt_zero_of_prefix (hbits.trans (List.prefix_append ..))
  exact congrArg Prod.fst (hat.refRead_eq m.isLt)

theorem fieldLoaded_withFetchWord (h : 1 ≤ s.cwDepth) : (s.withFetchWord 4 m.toNat).FieldLoaded 4 := by
  intro j hj
  have hbyte : (0 + j) / 8 = 0 := by omega
  rw [show (s.withFetchWord 4 m.toNat).cur = 0 from rfl, hbyte, read_withFetchWord m h]
  rfl

end

/-- Settles O21: the step at the placed word is a decoder step at the loop head, and the four bits it reads are `m`. -/
theorem placedWordRuns : Obligations.PlacedWordRuns := by
  intro s m hdepth
  have hL := withFetchWord_L_pos m hdepth
  have havail : 4 ≤ (s.withFetchWord 4 m.toNat).dropEdge.avail := by
    rw [State.avail_dropEdge]
    show 4 ≤ 8 * (s.withFetchWord 4 m.toNat).L - 0
    omega
  have hloaded : (s.withFetchWord 4 m.toNat).dropEdge.FieldLoaded 4 := fieldLoaded_withFetchWord m hdepth
  have hfield : (s.withFetchWord 4 m.toNat).dropEdge.field 4 = m.toNat := field_withFetchWord m hdepth
  refine ⟨decodeTableWord_mode m, ?_⟩
  calc step (s.withFetchWord 4 m.toNat) = decoderStep (s.withFetchWord 4 m.toNat).dropEdge := step_eq _
    _ = exec (decodeMode m) (s.withFetchWord 4 m.toNat).dropEdge := by
      rw [decoderStep_hdr_eq rfl havail, withField_of_loaded _ hloaded, hfield, BitVec.ofNat_toNat, BitVec.setWidth_eq]

end Sys2Proof.Machine
end

section
/-! PROOFS. The machine against the reference function: the loop's fuel and halts (O51), one step (O53), a whole decode (O54),
and that a loaded decode never stops (O14). -/

namespace Sys2Proof.Machine

/-! ## The reference loop -/

section
variable {buf : List Byte}

/-- The unread bits shrink as the cursor moves on (R54). -/
theorem refAvail_le_of_le {c cur : Nat} (h : cur ≤ c) : refAvail buf c ≤ refAvail buf cur := Nat.sub_le_sub_left h _

/-- The Kanji skip leaves no more bits unread, its clamp included (R151, R152). -/
theorem refAvail_refKanji_le (n cur : Nat) : refAvail buf (refKanji buf n cur).2 ≤ refAvail buf cur := by
  simp only [refAvail, refKanji]
  omega

/-- A segment halts without reading on, or is a body followed by the rest from a cursor with no more bits unread (R90). -/
theorem refSegment_cases (buf : List Byte) (m cur : Nat) :
    (∃ r, r ≠ .none ∧ ∀ rest, refSegment buf m cur rest = ([], r)) ∨
      ∃ body : List Byte × Nat, refAvail buf body.2 ≤ refAvail buf cur ∧
        ∀ rest, refSegment buf m cur rest = refThen body rest :=
  match m with
  | 0 => .inl ⟨.term, nofun, fun _ => rfl⟩
  | 1 => .inr ⟨_, refAvail_le_of_le ((le_refRead ..).trans (le_refNum ..)), fun _ => rfl⟩
  | 2 => .inr ⟨_, refAvail_le_of_le ((le_refRead ..).trans (le_refAlnum ..)), fun _ => rfl⟩
  | 4 => .inr ⟨_, refAvail_le_of_le ((le_refRead ..).trans (le_refByte ..)), fun _ => rfl⟩
  | 8 => .inr ⟨_, (refAvail_refKanji_le ..).trans (refAvail_le_of_le (le_refRead ..)), fun _ => rfl⟩
  | 3 | 5 | 6 | 7 | _ + 9 => .inl ⟨.unsup, nofun, fun _ => rfl⟩

/-- A segment uses what follows it only from cursors with no more bits unread. -/
theorem refSegment_congr {m cur : Nat} {rest rest' : Nat → List Byte × HaltReason}
    (h : ∀ c, refAvail buf c ≤ refAvail buf cur → rest c = rest' c) :
    refSegment buf m cur rest = refSegment buf m cur rest' := by
  rcases refSegment_cases buf m cur with ⟨r, _, hr⟩ | ⟨body, hle, hbody⟩
  · rw [hr, hr]
  · rw [hbody, hbody, refThen, refThen, h _ hle]

/-- Reading a mode indicator leaves 4 bits fewer unread (R93). -/
theorem refAvail_refRead_mode {cur : Nat} (h : ¬ refAvail buf cur < 4) :
    refAvail buf (refRead buf cur 4).2 + 4 = refAvail buf cur := by
  simp only [refAvail, refRead_snd] at h ⊢
  omega

/-- Any fuel of more turns than the unread bits have mode indicators gives the same decode (R101). -/
theorem refLoop_eq_of_fuel {cur fuel fuel' : Nat} (h : refAvail buf cur < 4 * fuel) (h' : refAvail buf cur < 4 * fuel') :
    refLoop buf fuel cur = refLoop buf fuel' cur := by
  induction fuel generalizing cur fuel' with
  | zero => omega
  | succ fuel ih =>
    obtain ⟨fuel', rfl⟩ := Nat.exists_eq_succ_of_ne_zero (show fuel' ≠ 0 by omega)
    simp only [refLoop, wMode]
    split
    · rfl
    · next ha =>
      have hmode := refAvail_refRead_mode ha
      exact refSegment_congr fun c hc => ih (by omega) (by omega)

/-- With fuel enough, the loop halts for a reason (R90). -/
theorem refLoop_reason_ne_none {cur fuel : Nat} (h : refAvail buf cur < 4 * fuel) : (refLoop buf fuel cur).2 ≠ .none := by
  induction fuel generalizing cur with
  | zero => omega
  | succ fuel ih =>
    simp only [refLoop, wMode]
    split
    · nofun
    · next ha =>
      have hmode := refAvail_refRead_mode ha
      rcases refSegment_cases buf (refRead buf cur 4).1 (refRead buf cur 4).2 with ⟨r, hne, hr⟩ | ⟨body, hle, hbody⟩
      · rw [hr]; exact hne
      · rw [hbody]; exact ih (by omega)

/-- `2*L + 1` turns are more than a buffer has mode indicators (R101). -/
theorem refAvail_lt_fuel (buf : List Byte) (cur : Nat) : refAvail buf cur < 4 * (2 * buf.length + 1) := by
  unfold refAvail
  omega

/-- The decode from a segment boundary, one turn of the loop unfolded (R90). -/
theorem refFrom_eq (buf : List Byte) (cur : Nat) :
    refFrom buf cur =
      if refAvail buf cur < 4 then ([], .exhaust)
      else refSegment buf (refRead buf cur 4).1 (refRead buf cur 4).2 (refFrom buf) := by
  rw [refFrom, refLoop, wMode]
  split
  · rfl
  · next ha =>
    have hmode := refAvail_refRead_mode ha
    have hfuel := refAvail_lt_fuel buf cur
    exact refSegment_congr fun c hc => refLoop_eq_of_fuel (by omega) (refAvail_lt_fuel buf c)

end

/-- Settles O51: `2*L + 1` turns are enough fuel from cursor 0, and so is any number above it. -/
theorem referenceTotal : Obligations.ReferenceTotal :=
  ⟨fun buf => refLoop_reason_ne_none (refAvail_lt_fuel buf 0),
    fun buf fuel hle => refLoop_eq_of_fuel ((refAvail_lt_fuel buf 0).trans_le (by omega)) (refAvail_lt_fuel buf 0), rfl⟩

/-! ## What a decoder move does to the bytes owed -/

/-- An empty body is the rest alone. -/
theorem refThen_nil (cur : Nat) (rest : Nat → List Byte × HaltReason) : refThen ([], cur) rest = rest cur := rfl

/-- Every mode but the terminator and the four supported ones halts with UNSUP (R98). -/
theorem refSegment_unsup {m : Nat} (h0 : m ≠ 0) (h1 : m ≠ 1) (h2 : m ≠ 2) (h4 : m ≠ 4) (h8 : m ≠ 8) (buf : List Byte)
    (cur : Nat) (rest : Nat → List Byte × HaltReason) : refSegment buf m cur rest = ([], .unsup) :=
  match m with
  | 0 => absurd rfl h0
  | 1 => absurd rfl h1
  | 2 => absurd rfl h2
  | 4 => absurd rfl h4
  | 8 => absurd rfl h8
  | 3 | 5 | 6 | 7 | _ + 9 => rfl

/-- `rem` holds a number of at most 10 bits whole (R25). -/
theorem toNat_ofNat_of_lt {n w : Nat} (h : n < 2 ^ w) (hw : w ≤ 10) : (BitVec.ofNat 10 n).toNat = n := by
  rw [BitVec.toNat_ofNat]
  exact Nat.mod_eq_of_lt (h.trans_le (Nat.pow_le_pow_right (by decide) hw))

/-- `rem` counts down without a wrap (R25). -/
theorem toNat_ofNat_rem_sub (r : BitVec 10) (k : Nat) : (BitVec.ofNat 10 (r.toNat - k)).toNat = r.toNat - k :=
  toNat_ofNat_of_lt ((Nat.sub_le ..).trans_lt r.isLt) (le_refl 10)

section
variable {s t : State} {buf : List Byte}

/-- The machine's read of a field is the reference function's (R55, R56). -/
theorem State.refRead_of_holds (h : s.Holds buf) (n : Nat) : refRead buf s.cur n = (s.field n, s.cur + min n s.avail) := by
  rw [State.field_of_holds h, State.avail, h.1]
  rfl

theorem State.refAvail_of_holds (h : s.Holds buf) : refAvail buf s.cur = s.avail := by
  rw [refAvail, State.avail, h.1]

/-- At the loop head with a mode indicator left, what is owed is its segment's (R93). -/
theorem State.owes_hdr (h : s.Holds buf) (hp : s.phase = .hdr) (ha : 4 ≤ s.avail) :
    s.owes buf = refSegment buf (s.field 4) (s.cur + 4) (refFrom buf) := by
  simp only [State.owes, hp]
  rw [refFrom_eq, State.refAvail_of_holds h, if_neg (Nat.not_lt.mpr ha), State.refRead_of_holds h, Nat.min_eq_left ha]

/-- A decoder move takes its bytes from the front of what is owed, and the rest is owed from the state after it (R91). -/
theorem DecoderMove.owes_eq (hm : DecoderMove s t) (h : s.Holds buf) (hq : s.pq = []) :
    s.owes buf = (t.pq ++ (t.owes buf).1, (t.owes buf).2) := by
  cases hm with
  | exhaust hp ha =>
    simp only [State.owes, hp]
    rw [refFrom_eq, State.refAvail_of_holds h, if_pos ha]
    simp [hq]
  | term hp ha _ hv =>
    rw [State.owes_hdr h hp ha, hv]
    simp [hq, State.owes, refSegment]
  | unsup hp ha _ h0 h1 h2 h4 h8 =>
    rw [State.owes_hdr h hp ha, refSegment_unsup h0 h1 h2 h4 h8]
    simp [hq, State.owes]
  | latch m _ hp ha _ hv =>
    rw [State.owes_hdr h hp ha, hv]
    simp [hq, State.owes, latchMode]
  | count m w p hm hp hmode =>
    have hread := State.refRead_of_holds h w
    have hv := s.field_lt_width w
    rcases hm with ⟨rfl, rfl, rfl⟩ | ⟨rfl, rfl, rfl⟩ | ⟨rfl, rfl, rfl⟩ | ⟨rfl, rfl, rfl⟩ <;>
      simp [State.owes, hp, hmode, hq, refSegment, hread, toNat_ofNat_of_lt hv]
  | bodyEnd hp hr =>
    rcases hp with hp | hp | hp <;> simp [State.owes, hp, hr, hq, refNum, refAlnum, refByte, refThen_nil]
  | byteAbandon hp hr ha =>
    obtain ⟨c, hc⟩ := Nat.exists_eq_succ_of_ne_zero hr.ne'
    simp [State.owes, hp, hc, hq, refByte, State.refAvail_of_holds h, ha, refThen_nil]
  | skip hp => simp [State.owes, hp, hq, refKanji, refThen_nil, h.1]
  | group w k bs _ hk hkr hg =>
    obtain ⟨c, hc⟩ := Nat.exists_eq_add_of_le' hkr
    have hrem := toNat_ofNat_rem_sub s.rem k
    rw [hc, Nat.add_sub_cancel] at hrem
    have hread := State.refRead_of_holds h w
    rcases hg with ⟨hp, rfl, rfl, rfl⟩ | ⟨hp, rfl, rfl, hr, rfl⟩ | ⟨hp, rfl, rfl, hr, rfl⟩ | ⟨hp, rfl, rfl, rfl⟩ |
      ⟨hp, rfl, rfl, hr, rfl⟩ | ⟨hp, rfl, rfl, ha, rfl⟩
    · simp [State.owes, hp, hc, hrem, hq, refNum, hread, refThen]
    · simp [State.owes, hp, hr, hq, refNum, hread, refThen]
    · simp [State.owes, hp, hr, hq, refNum, hread, refThen]
    · simp [State.owes, hp, hc, hrem, hq, refAlnum, hread, refThen]
    · simp [State.owes, hp, hr, hq, refAlnum, hread, refThen]
    · simp [State.owes, hp, hc, hrem, hq, refByte, hread, refThen, State.refAvail_of_holds h, Nat.not_lt.mpr ha]

end

/-! ## The edges of a decode in progress -/

section
variable (p : PortIn) (s : State)

@[simp] theorem afterLoad_inputs : (afterLoad p s).inputs = s.inputs := by unfold afterLoad; split <;> rfl
@[simp] theorem afterStart_inputs : (afterStart p s).inputs = s.inputs := by unfold afterStart; split <;> rfl
@[simp] theorem afterPop_inputs : (afterPop p s).inputs = s.inputs := by unfold afterPop; split <;> rfl
@[simp] theorem afterPop_busy : (afterPop p s).busy = s.busy := by unfold afterPop; split <;> rfl

variable (buf : List Byte)

@[simp] theorem State.owes_dropEdge : s.dropEdge.owes buf = s.owes buf := rfl

/-- POP changes nothing of what the decoder still owes. -/
@[simp] theorem afterPop_owes : (afterPop p s).owes buf = s.owes buf := by unfold afterPop; split <;> rfl

end

section
variable {s t : State}

/-- No decoder move touches the coming inputs (R160). -/
theorem DecoderMove.inputs_eq (h : DecoderMove s t) : t.inputs = s.inputs := by
  cases h <;> rfl

/-- A decoder move of a busy machine leaves it busy, or halts it (R100). -/
theorem DecoderMove.busy_or_done (h : DecoderMove s t) (hb : s.busy = true) : t.busy = true ∨ t.phase = .done := by
  cases h with
  | exhaust | term | unsup => exact .inr rfl
  | latch | bodyEnd | byteAbandon | skip => exact .inl rfl
  | count m w p hm => rcases hm with ⟨_, _, rfl⟩ | ⟨_, _, rfl⟩ | ⟨_, _, rfl⟩ | ⟨_, _, rfl⟩ <;> exact .inl rfl
  | group => exact .inl hb

/-- A step uses up the edge's inputs (R160). -/
theorem step_inputs (h : step s = .next t) : t.inputs = s.inputs.tail := by
  rcases step_cases h with ⟨_, rfl⟩ | ⟨_, _, _, hm⟩ | ⟨_, _, _, rfl⟩ | ⟨_, _, rfl⟩
  · rfl
  · exact hm.inputs_eq
  · rfl
  · simp

/-- Without reset, an edge of a decode in progress makes a decoder move, or POP alone has an effect (R92, R163, R164). -/
theorem step_cases_of_busy (hb : s.busy = true) (hrst : s.nextEdge.ports.rst = false) (h : step s = .next t) :
    (s.decoderEnabled = true ∧ s.nextEdge.decoderGo = true ∧ DecoderMove s.dropEdge t) ∨
      ((s.decoderEnabled && s.nextEdge.decoderGo) = false ∧ t = afterPop s.nextEdge.ports s.dropEdge) := by
  have hstart := afterStart_afterLoad_of_busy (p := s.nextEdge.ports) (s := s.dropEdge) hb
  rcases step_cases h with ⟨hrst', _⟩ | ⟨_, he, hgo, hm⟩ | ⟨_, he, hgo, ht⟩ | ⟨_, he, ht⟩
  · simp [hrst] at hrst'
  · exact .inl ⟨he, hgo, hm⟩
  · have hpop := afterCommands_of_enabled (p := s.nextEdge.ports) (s := s.dropEdge) he
    rw [hstart] at hpop
    exact .inr ⟨by simp [hgo], ht.trans hpop.symm⟩
  · rw [hstart] at ht
    exact .inr ⟨by simp [he], ht⟩

variable (hb : s.busy = true) (hrst : s.nextEdge.ports.rst = false) (h : step s = .next t)
include hb hrst h

/-- Without reset, a decode in progress goes on, or halts (R100). -/
theorem step_busy_or_done : t.busy = true ∨ t.phase = .done := by
  rcases step_cases_of_busy hb hrst h with ⟨_, _, hm⟩ | ⟨_, rfl⟩
  · exact hm.busy_or_done hb
  · exact .inl (by simpa using hb)

/-- Without reset, an edge of a decode in progress keeps the buffer length (R22). -/
theorem step_L_of_busy : t.L = s.L := by
  rcases step_cases_of_busy hb hrst h with ⟨_, _, hm⟩ | ⟨_, rfl⟩
  · exact hm.frame.1
  · simp

/-- Without reset, an edge of a decode in progress keeps the buffer it decodes (R53). -/
theorem step_holds_of_busy {buf : List Byte} (hbuf : s.Holds buf) : t.Holds buf := by
  rw [State.Holds, step_L_of_busy hb hrst h, step_cw_of_busy hb h]
  exact hbuf

end

/-- Settles O14: a busy machine's enabled decoder finds its field loaded (O12), and every other event answers; the RAM keeps
its bytes and the buffer its length, but for a reset, which makes it empty. -/
theorem loadedDecodeNeverStops : Obligations.LoadedDecodeNeverStops := by
  intro s hs hl
  have hnext : ∃ t, step s = .next t := by
    rw [step_eq]
    split_ifs with hrst he hgo
    · exact ⟨_, rfl⟩
    · obtain ⟨t, ht⟩ := (uninitReadExactly s hs he hgo (by simpa using hrst)).1 hl
      exact ⟨t, by simpa [step_eq, hrst, he, hgo] using ht⟩
    · exact ⟨_, rfl⟩
    · exact ⟨_, rfl⟩
  obtain ⟨t, ht⟩ := hnext
  refine ⟨t, ht, stepKeepsInvariant s t hs ht, fun hb a ha => ?_⟩
  rcases step_cases ht with ⟨_, rfl⟩ | ⟨hrst, _⟩ | ⟨hrst, _⟩ | ⟨hrst, _⟩
  · exact absurd ha (Nat.not_lt_zero a)
  all_goals
    rw [step_cw_of_busy hb ht]
    exact hl a (step_L_of_busy hb hrst ht ▸ ha)

/-- Settles O53: a decoder move takes its bytes from the front of what is owed (`DecoderMove.owes_eq`), and POP hands over the
queue's front. -/
theorem stepRefinesReference : Obligations.StepRefinesReference := by
  intro s t buf _ hb hbuf hrst h
  rcases step_cases_of_busy hb hrst h with ⟨he, _, hm⟩ | ⟨_, rfl⟩
  · obtain ⟨_, hq⟩ := (State.decoderEnabled_iff s).mp he
    obtain ⟨htaken, _⟩ := hm.output
    have howes := hm.owes_eq hbuf hq
    rw [State.owes_dropEdge] at howes
    simp [howes, htaken, hq]
  · simp [afterPop_output]

/-! ## A whole decode -/

section
variable {s t : State} {k : Nat}

/-- A run begins with a step and goes on from where it leads. -/
theorem run_succ_of_step (h : step s = .next t) (k : Nat) : core.run (k + 1) s = core.run k t := by
  have hcore : core.step s = .next t := h
  simp only [Host.Core.run, hcore]

/-- A run that has come to `k + 1` edges made a first step, and the other `k` edges after it. -/
theorem step_of_run_succ (h : core.run (k + 1) s = .next t) : ∃ u, step s = .next u ∧ core.run k u = .next t := by
  simp only [Host.Core.run] at h
  split at h
  · exact ⟨_, ‹_›, h⟩
  · cases h
  · cases h

/-- START keeps the invariant (R162). -/
theorem execStart_keeps_inv {n : Nat} (hs : s.Inv) (h : execStart n s = .next t) : t.Inv := by
  rw [execStart_eq_afterStart (p := { PortIn.quiet with start := true, startLen := n }) rfl] at h
  cases h
  exact afterStart_keeps_inv _ hs

/-- Without reset in the edges ahead, there is none at the next one, and none in those after it. -/
theorem rst_of_inputs (h : ∀ e ∈ s.inputs.take (k + 1), e.ports.rst = false) :
    s.nextEdge.ports.rst = false ∧ ∀ e ∈ s.inputs.tail.take k, e.ports.rst = false := by
  unfold State.nextEdge
  cases hi : s.inputs with
  | nil => exact ⟨rfl, by simp⟩
  | cons e es =>
    rw [hi, List.take_succ_cons, List.forall_mem_cons] at h
    exact h

/-- A halted decode owes nothing but its reason. -/
theorem State.owes_done (buf : List Byte) (hp : t.phase = .done) : t.owes buf = ([], t.hr) := by
  simp only [State.owes, hp]

/-- At the first `done` of a run without reset, the host has taken what was taken, queued and owed at its beginning (R91). -/
theorem run_refines {buf : List Byte} (hs : s.Inv) (hb : s.busy = true) (hbuf : s.Holds buf)
    (hrst : ∀ e ∈ s.inputs.take k, e.ports.rst = false)
    (hfirst : ∀ j, j < k → ∀ u, core.run j s = .next u → u.done = false) (hrun : core.run k s = .next t)
    (hdone : t.done = true) : (t.taken, t.hr) = (s.taken ++ s.pq ++ (s.owes buf).1, (s.owes buf).2) := by
  induction k generalizing s with
  | zero =>
    cases hrun
    rw [done_eq_false_of_busy hb] at hdone
    cases hdone
  | succ k ih =>
    obtain ⟨u, hu, hrun⟩ := step_of_run_succ hrun
    obtain ⟨hedge, hrest⟩ := rst_of_inputs hrst
    have hinv : u.Inv := stepKeepsInvariant s u hs hu
    obtain ⟨hbytes, hreason⟩ := stepRefinesReference s u buf hs hb hbuf hedge hu
    rw [← hbytes, ← hreason]
    rcases step_busy_or_done hb hedge hu with hbusy | hphase
    · rw [← step_inputs hu] at hrest
      exact ih hinv hbusy (step_holds_of_busy hb hedge hu hbuf) hrest
        (fun j hj v hv => hfirst (j + 1) (by omega) v ((run_succ_of_step hu j).trans hv)) hrun
    · obtain ⟨hq, _⟩ := (phaseOk_done hphase).mp hinv.phase_ok
      have hk : k = 0 := by
        by_contra hne
        have hlate := hfirst 1 (by omega) u (run_succ_of_step hu 0)
        simp [State.done, hphase, hq] at hlate
      subst hk
      cases hrun
      simp [hq, State.owes_done buf hphase]

end

/-- Settles O54: the started state owes the whole decode of the buffer, with nothing taken or queued. -/
theorem machineRefinesReference : Obligations.MachineRefinesReference := by
  intro s0 s t buf k hs0 hb hlen hbuf hstart hrst hfirst hrun hdone
  have hs : s.Inv := execStart_keeps_inv hs0 hstart
  rw [show exec (.start buf.length) s0 = execStart buf.length s0 from rfl, execStart_of_not_busy hb hlen] at hstart
  cases hstart
  exact run_refines hs rfl ⟨rfl, hbuf⟩ hrst hfirst hrun hdone

end Sys2Proof.Machine
end

section
/-! PROOFS. The bound on a decode's decoder steps (O56): a measure of the state that every decoder step makes smaller. -/

namespace Sys2Proof.Machine

/-! ## The measure -/

/-- No fewer than the decoder steps that the segment in progress and a halt after it take: from the count on 344, namely the
count's, 341 groups of a count of 1023 (R111), the body's end and the halt. -/
def State.segmentSteps (s : State) : Nat :=
  match s.phase with
  | .idle | .done => 0
  | .hdr => 1
  | .cnt => 344
  | .num => (s.rem.toNat + 2) / 3 + 2
  | .alnum => (s.rem.toNat + 1) / 2 + 2
  | .byte => s.rem.toNat + 2
  | .kanji => 2

/-- No fewer than the decoder steps that a decode still takes: past the segment in progress at most 344 for each mode indicator
that the unread bits have room for (R101). -/
def State.stepsLeft (s : State) : Nat := s.segmentSteps + 344 * (s.avail / 4)

section
variable {s t : State}

theorem State.stepsLeft_pos (h : s.busy = true) : 0 < s.stepsLeft := by
  have hsegment : 0 < s.segmentSteps := by
    unfold State.segmentSteps
    cases hp : s.phase with
    | idle | done => simp [State.busy, hp] at h
    | hdr | cnt | num | alnum | byte | kanji => simp
  exact Nat.add_pos_left hsegment _

/-- At the loop head the measure is at most the bound of R208. -/
theorem State.stepsLeft_le_of_hdr (h : s.phase = .hdr) : s.stepsLeft ≤ 688 * s.L + 1 := by
  simp only [State.stepsLeft, State.segmentSteps, State.avail, h]
  omega

/-- No decoder move leaves more bits unread (R21, R54). -/
theorem DecoderMove.avail_le (h : DecoderMove s t) (hc : s.cur ≤ 8 * s.L) : t.avail ≤ s.avail := by
  obtain ⟨hL, _⟩ := h.frame
  rw [State.avail, State.avail, hL]
  exact Nat.sub_le_sub_left (h.le_cur hc) _

/-- A decoder move makes the segment's part smaller, but for a latched mode, which begins a segment past its 4 bits (R94). -/
theorem DecoderMove.segmentSteps_lt (h : DecoderMove s t) :
    t.segmentSteps < s.segmentSteps ∨ (t.segmentSteps = s.segmentSteps + 343 ∧ t.avail + 4 = s.avail) := by
  cases h with
  | exhaust hp | term hp | unsup hp => exact .inl (by simp [State.segmentSteps, hp])
  | latch m _ hp ha =>
    refine .inr ⟨by simp [State.segmentSteps, hp, latchMode], ?_⟩
    simp only [State.avail, latchMode, State.goto_L, State.goto_cur, State.setMode_L, State.setMode_cur, State.advance_L,
      State.advance_cur] at ha ⊢
    omega
  | count m w p hm hp =>
    have hv := s.field_lt_width w
    refine .inl ?_
    rcases hm with ⟨_, rfl, rfl⟩ | ⟨_, rfl, rfl⟩ | ⟨_, rfl, rfl⟩ | ⟨_, rfl, rfl⟩ <;>
      · simp only [State.segmentSteps, hp, State.goto_phase, State.goto_rem, State.setRem_rem,
          toNat_ofNat_of_lt hv (by decide)]
        omega
  | bodyEnd hp => exact .inl (by rcases hp with hp | hp | hp <;> simp [State.segmentSteps, hp])
  | byteAbandon hp | skip hp => exact .inl (by simp [State.segmentSteps, hp])
  | group w k bs _ hk hkr hg =>
    refine .inl ?_
    have hrem := toNat_ofNat_rem_sub s.rem k
    rcases hg with ⟨hp, _, hk, _⟩ | ⟨hp, _, hk, _⟩ | ⟨hp, _, hk, _⟩ | ⟨hp, _, hk, _⟩ | ⟨hp, _, hk, _⟩ |
      ⟨hp, _, hk, _⟩ <;>
      · simp only [State.segmentSteps, State.setRem_phase, State.emit_phase, State.advance_phase, hp, State.setRem_rem, hrem]
        omega

/-- Every decoder move makes the measure smaller. -/
theorem DecoderMove.stepsLeft_lt (h : DecoderMove s t) (hc : s.cur ≤ 8 * s.L) : t.stepsLeft < s.stepsLeft := by
  have hle := h.avail_le hc
  unfold State.stepsLeft
  rcases h.segmentSteps_lt with hlt | ⟨heq, hmode⟩ <;> omega

@[simp] theorem State.stepsLeft_dropEdge (s : State) : s.dropEdge.stepsLeft = s.stepsLeft := rfl

@[simp] theorem afterPop_stepsLeft (p : PortIn) (s : State) : (afterPop p s).stepsLeft = s.stepsLeft := by
  unfold afterPop; split <;> rfl

/-! ## The steps taken -/

/-- An enabled decoder takes its step at the coming edge (R92, R160, R200). -/
def State.takesStep (s : State) : Bool := s.decoderEnabled && s.nextEdge.decoderGo && !s.nextEdge.ports.rst

/-- At edge `j` of the run from `s` an enabled decoder takes its step. -/
def takesStepAt (s : State) (j : Nat) : Bool :=
  match core.run j s with
  | .next u => u.takesStep
  | .fault _ => false
  | .refused _ => false

/-- The decoder steps that the first edges of the run from `s` take are those of its first edge and of the edges after it. -/
theorem countP_takesStepAt_succ (h : step s = .next t) (k : Nat) :
    (List.range (k + 1)).countP (takesStepAt s) = (List.range k).countP (takesStepAt t) + s.takesStep.toNat := by
  have hlater : takesStepAt s ∘ Nat.succ = takesStepAt t := by
    funext j
    simp only [Function.comp, takesStepAt, Nat.succ_eq_add_one, run_succ_of_step h]
  have hfirst : takesStepAt s 0 = s.takesStep := rfl
  rw [List.range_succ_eq_map, List.countP_cons, List.countP_map, hlater, hfirst]
  cases s.takesStep <;> rfl

/-- An edge that leaves the machine busy is one without reset, or one of a machine that was not busy (R200). -/
theorem rst_of_busy_after (h : step s = .next t) (hb : t.busy = true) : s.nextEdge.ports.rst = false := by
  rcases step_cases h with ⟨_, rfl⟩ | ⟨hrst, _⟩ | ⟨hrst, _⟩ | ⟨hrst, _⟩
  · cases hb
  all_goals exact hrst

/-- An edge that leaves a decode in progress uses up one of the measure's steps if the decoder takes one there. -/
theorem stepsLeft_step (hs : s.Inv) (hb : s.busy = true) (hrst : s.nextEdge.ports.rst = false) (h : step s = .next t) :
    t.stepsLeft + s.takesStep.toNat ≤ s.stepsLeft := by
  rcases step_cases_of_busy hb hrst h with ⟨_, _, hm⟩ | ⟨hidle, rfl⟩
  · have hlt : t.stepsLeft < s.stepsLeft := hm.stepsLeft_lt hs.cur_le
    have hone := s.takesStep.toNat_le
    omega
  · simp [State.takesStep, hidle]

/-- A run that stays busy for `k` edges takes at most the measure's decoder steps in them. -/
theorem countP_takesStepAt_le {k : Nat} (hs : s.Inv)
    (hbusy : ∀ j, j < k → ∃ u : State, core.run j s = .next u ∧ u.busy = true) :
    (List.range k).countP (takesStepAt s) ≤ s.stepsLeft := by
  induction k generalizing s with
  | zero => exact Nat.zero_le _
  | succ k ih =>
    obtain ⟨_, hself, hb⟩ := hbusy 0 (Nat.succ_pos k)
    cases hself
    cases k with
    | zero =>
      have hlen := List.countP_le_length (p := takesStepAt s) (l := List.range 1)
      exact hlen.trans (State.stepsLeft_pos hb)
    | succ k =>
      obtain ⟨u, hrun, hbu⟩ := hbusy 1 (by omega)
      obtain ⟨v, hu, hv⟩ := step_of_run_succ hrun
      cases hv
      have hrest := ih (stepKeepsInvariant s u hs hu) fun j hj =>
        run_succ_of_step hu j ▸ hbusy (j + 1) (Nat.succ_lt_succ hj)
      have hfirst := stepsLeft_step hs hb (rst_of_busy_after hu hbu) hu
      rw [countP_takesStepAt_succ hu]
      omega

end

/-- Settles O56: each decoder step makes the measure smaller and no other edge makes it larger, and at the loop head it is at
most the bound. -/
theorem decoderStepBound : Obligations.DecoderStepBound :=
  fun _ _ hs hp hbusy => (countP_takesStepAt_le hs hbusy).trans (State.stepsLeft_le_of_hdr hp)

end Sys2Proof.Machine
end

section
/-! PROOFS. The segment loop: which segment a decoder step runs (O19), the loop head's latch and halts (O24 to O27), the count
step (O28), the hold (O29), what a halt writes and what leaves DONE (O30), and the frame of the segments (O48). -/

namespace Sys2Proof.Machine

section
variable {s t : State}

/-! ## The segment a decoder step runs -/

/-- The decoder is enabled at the loop head with nothing pending (R92). -/
theorem decoderEnabled_hdr (hp : s.phase = .hdr) (hq : s.pq = []) : s.decoderEnabled = true := by
  simp [State.decoderEnabled, State.busy, hp, hq]

/-- At an edge that takes it, the step is the decoder's, with the edge's inputs used up (R160). -/
theorem step_eq_decoderStep (he : s.decoderEnabled = true) (hgo : s.nextEdge.decoderGo = true)
    (hrst : s.nextEdge.ports.rst = false) : step s = decoderStep s.dropEdge := by
  simp [step_eq, he, hgo, hrst]

/-- At the loop head on loaded bits, the decoder runs the segment they decode to (R93). -/
theorem decoderStep_hdr_of_loaded (hp : s.phase = .hdr) (ha : 4 ≤ s.avail) (hl : s.FieldLoaded 4) :
    decoderStep s = exec (decodeMode (BitVec.ofNat 4 (s.field 4))) s := by
  rw [decoderStep_hdr_eq hp ha, withField_of_loaded _ hl]

/-- In a body phase the decoder runs that body's segment (R92). -/
theorem decoderStep_body_eq (s : State) :
    (s.phase = .num → decoderStep s = exec .num s) ∧ (s.phase = .alnum → decoderStep s = exec .alnum s) ∧
      (s.phase = .byte → decoderStep s = exec .byte s) ∧ (s.phase = .kanji → decoderStep s = exec .kanji s) := by
  refine ⟨?_, ?_, ?_, ?_⟩ <;>
    · intro hp
      simp only [decoderStep, fetch, hp]

/-- At the loop head on loaded bits, the step runs the mode they are (R93). -/
theorem step_hdr_eq_exec {m : Nibble} (hp : s.phase = .hdr) (hq : s.pq = []) (ha : 4 ≤ s.avail)
    (hgo : s.nextEdge.decoderGo = true) (hrst : s.nextEdge.ports.rst = false) (hl : s.FieldLoaded 4)
    (hv : s.field 4 = m.toNat) : step s = exec (decodeMode m) s.dropEdge := by
  have hm : BitVec.ofNat 4 (s.dropEdge.field 4) = m := BitVec.eq_of_toNat_eq (by
    rw [BitVec.toNat_ofNat]
    exact (congrArg (· % 2 ^ 4) hv).trans (Nat.mod_eq_of_lt m.isLt))
  rw [step_eq_decoderStep (decoderEnabled_hdr hp hq) hgo hrst, decoderStep_hdr_of_loaded (s := s.dropEdge) hp ha hl, hm]

end

/-- Settles O19: the step is the decoder's, which runs its phase's segment. -/
theorem stepRunsDecodedSegment : Obligations.StepRunsDecodedSegment := by
  intro s he hgo hrst
  rw [step_eq_decoderStep he hgo hrst]
  exact ⟨fun hp ha hl => decoderStep_hdr_of_loaded (s := s.dropEdge) hp ha hl,
    fun hp => decoderStep_cnt_eq (s := s.dropEdge) hp, decoderStep_body_eq s.dropEdge⟩

/-! ## The loop head -/

/-- Settles O24: a counted segment at the loop head (`countedSegment_hdr`) latches its own mode. -/
theorem headerLatchesMode : Obligations.HeaderLatchesMode := by
  intro s hp hq ha
  have he := decoderEnabled_hdr hp hq
  refine ⟨countedSegment_hdr he hp ha, countedSegment_hdr he hp ha, countedSegment_hdr he hp ha,
    countedSegment_hdr he hp ha, fun hgo hrst hl m hm hv => ?_⟩
  rw [step_hdr_eq_exec hp hq ha hgo hrst hl hv]
  rcases hm with rfl | rfl | rfl | rfl <;> exact countedSegment_hdr (s := s.dropEdge) he hp ha

/-- A halt with nothing pending raises `done` (R36, R100). -/
theorem done_halt {s : State} (hq : s.pq = []) (r : HaltReason) : (s.halt r).done = true := by
  simp [State.done, hq]

/-- Settles O25: the halting segment at the loop head, for TERM (`haltSegment_hdr`). -/
theorem termHalts : Obligations.TermHalts := by
  intro s hp hq ha
  have he := decoderEnabled_hdr hp hq
  refine ⟨⟨_, haltSegment_hdr he hp ha, rfl, rfl, done_halt (by exact hq) _, rfl⟩, fun hgo hrst hl hv => ?_⟩
  rw [step_hdr_eq_exec (m := 0) hp hq ha hgo hrst hl hv]
  exact haltSegment_hdr (s := s.dropEdge) he hp ha

/-- Each unsupported mode's segment is the halt with UNSUP (R98). -/
theorem exec_of_isUnsup {i : Instr} (h : i.isUnsup = true) : exec i = haltSegment .unsup := by
  cases i with
  | term | num | alnum | byte | kanji | load | start | pop => cases h
  | _ => rfl

/-- The modes of R98 are the unsupported segments'. -/
theorem decodeMode_isUnsup : ∀ m : Nibble,
    (m.toNat = 0b0011 ∨ m.toNat = 0b0101 ∨ m.toNat = 0b0110 ∨ m.toNat = 0b0111 ∨ 0b1001 ≤ m.toNat) →
      (decodeMode m).isUnsup = true := by decide

/-- Settles O26: the halting segment at the loop head, for each unsupported mode. -/
theorem unsupportedHalts : Obligations.UnsupportedHalts := by
  intro s hp hq ha
  have he := decoderEnabled_hdr hp hq
  refine ⟨fun i hi => ?_, fun hgo hrst hl hv => ?_⟩
  · rw [exec_of_isUnsup hi]
    exact ⟨_, haltSegment_hdr he hp ha, rfl, rfl, done_halt (by exact hq) _, rfl⟩
  · have hm : s.field 4 = (BitVec.ofNat 4 (s.field 4)).toNat := by
      rw [BitVec.toNat_ofNat, Nat.mod_eq_of_lt (s.field_lt_width 4)]
    rw [step_hdr_eq_exec hp hq ha hgo hrst hl hm, exec_of_isUnsup (decodeMode_isUnsup _ (hm ▸ hv))]
    exact haltSegment_hdr (s := s.dropEdge) he hp ha

/-- A segment's meaning is the halt's or a counted segment's. -/
theorem exec_of_isSegment {i : Instr} (h : i.isSegment = true) :
    (∃ r, exec i = haltSegment r) ∨ ∃ m w p body, exec i = countedSegment m w p body := by
  rcases Bool.or_eq_true_iff.mp h with hh | hc
  · exact .inl (exec_of_isHalting hh)
  · cases i with
    | num | alnum | byte | kanji => exact .inr ⟨_, _, _, _, rfl⟩
    | _ => cases hc

/-- Every segment at a loop head without a mode indicator left takes EXHAUST (log entry 8). -/
theorem exec_segment_exhaust {i : Instr} {s : State} (hi : i.isSegment = true) (he : s.decoderEnabled = true)
    (hp : s.phase = .hdr) (ha : s.avail < 4) : exec i s = .next (s.halt .exhaust) := by
  rcases exec_of_isSegment hi with ⟨r, hr⟩ | ⟨m, w, p, body, hc⟩
  · simp [hr, haltSegment, he, hp, headerStep, ha]
  · simp [hc, countedSegment, he, hp, headerStep, ha]

/-- Settles O27: neither the fetch nor a segment's own header step goes past the halt check (R93, R97). -/
theorem exhaustHalts : Obligations.ExhaustHalts := by
  intro s hp hq ha
  have he := decoderEnabled_hdr hp hq
  refine ⟨fun hgo hrst => ?_, fun i hi => exec_segment_exhaust hi he hp ha⟩
  rw [step_eq_decoderStep he hgo hrst]
  exact ⟨_, decoderStep_exhaust (s := s.dropEdge) hp ha, rfl, rfl, done_halt (by exact hq) _, rfl⟩

/-! ## The count -/

/-- The CNT step on a loaded field (R95). -/
theorem countStep_of_loaded {w : Nat} {s : State} (p : Phase) (hl : s.FieldLoaded w) :
    countStep w p s = .next (((s.advance (min w s.avail)).setRem (s.field w)).goto p) :=
  withField_of_loaded _ hl

/-- Settles O28: each counted segment in CNT is its count step, and a field of at most 10 bits fits `rem`. -/
theorem countStepReads : Obligations.CountStepReads := by
  intro s hp hq
  have he : s.decoderEnabled = true := by simp [State.decoderEnabled, State.busy, hp, hq]
  have hcount : ∀ {m : Nibble} {w : Nat} (p : Phase) (body : State → Result), s.mode = m → s.FieldLoaded w →
      countedSegment m w p body s = .next (((s.advance (min w s.avail)).setRem (s.field w)).goto p) :=
    fun p _ hm hl => (countedSegment_cnt he hp hm).trans (countStep_of_loaded p hl)
  exact ⟨hcount .num numBody, hcount .alnum alnumBody, hcount .byte byteBody, hcount .kanji kanjiBody,
    fun n hn => toNat_ofNat_of_lt (s.field_lt_width n) hn⟩

/-! ## The hold, and DONE -/

/-- A segment holds while the decoder has no enabled step (log entry 8). -/
theorem exec_segment_hold {i : Instr} {s : State} (hi : i.isSegment = true) (he : s.decoderEnabled = false) :
    exec i s = .next s := by
  rcases exec_of_isSegment hi with ⟨r, hr⟩ | ⟨m, w, p, body, hc⟩
  · simp [hr, haltSegment, he]
  · simp [hc, countedSegment, he]

/-- Settles O29: `decoderGo` has a part in a step only where the decoder is enabled (`step_eq`). -/
theorem decoderHolds : Obligations.DecoderHolds := by
  refine ⟨fun s => ?_, fun i s => exec_segment_hold, fun s e es g he => ?_⟩
  · rw [State.decoderEnabled_iff, busy_iff_decoding_phase, List.length_eq_zero_iff]
  · have hoff : ∀ is, State.decoderEnabled { s with inputs := is } = false := fun _ => he
    simp only [step_eq, hoff]
    rfl

section
variable {s t : State}

/-- Of the decoder's moves the halts alone enter DONE, from the loop head, and they keep `mode` and `rem` (R100). -/
theorem DecoderMove.of_enters_done (h : DecoderMove s t) (hs : s.phase ≠ .done) (ht : t.phase = .done) :
    s.phase = .hdr ∧ t.mode = s.mode ∧ t.rem = s.rem := by
  cases h with
  | exhaust hp | term hp | unsup hp => exact ⟨hp, rfl, rfl⟩
  | latch | bodyEnd | byteAbandon | skip => cases ht
  | count m w p hm => rcases hm with ⟨_, _, rfl⟩ | ⟨_, _, rfl⟩ | ⟨_, _, rfl⟩ | ⟨_, _, rfl⟩ <;> cases ht
  | group => exact absurd ht hs

@[simp] theorem afterLoad_phase (p : PortIn) (s : State) : (afterLoad p s).phase = s.phase := by
  unfold afterLoad; split <;> rfl

@[simp] theorem afterPop_phase (p : PortIn) (s : State) : (afterPop p s).phase = s.phase := by
  unfold afterPop; split <;> rfl

/-- The host's commands change the phase only by a START that takes effect, to HDR (R162). -/
theorem afterStart_phase_cases (p : PortIn) (s : State) :
    (afterStart p s).phase = s.phase ∨ (p.start = true ∧ p.startLen ≤ s.cwDepth ∧ (afterStart p s).phase = .hdr) := by
  rcases afterStart_cases p s with he | ⟨hstart, _, hn, he⟩
  · exact .inl (congrArg State.phase he)
  · exact .inr ⟨hstart, hn, congrArg State.phase he⟩

/-- A step that enters DONE is a halting move of the decoder. -/
theorem step_enters_done (h : step s = .next t) (hs : s.phase ≠ .done) (ht : t.phase = .done) : DecoderMove s.dropEdge t := by
  rcases step_cases h with ⟨_, rfl⟩ | ⟨_, _, _, hm⟩ | ⟨_, _, _, rfl⟩ | ⟨_, _, rfl⟩
  · cases ht
  · exact hm
  · exact absurd ht hs
  · rcases afterStart_phase_cases s.nextEdge.ports (afterLoad s.nextEdge.ports s.dropEdge) with heq | ⟨_, _, heq⟩
    · exact absurd (by simpa [heq] using ht) hs
    · simp [heq] at ht

/-- A step that leaves DONE is a reset, or a START that takes effect (R100, R162). -/
theorem step_leaves_done (h : step s = .next t) (hs : s.phase = .done) (ht : t.phase ≠ .done) :
    s.nextEdge.ports.rst = true ∨
      (s.nextEdge.ports.start = true ∧ s.nextEdge.ports.startLen ≤ s.cwDepth ∧ t.phase = .hdr) := by
  have hoff : s.decoderEnabled = false := by simp [State.decoderEnabled, State.busy, hs]
  rcases step_cases h with ⟨hrst, _⟩ | ⟨_, he, _⟩ | ⟨_, he, _⟩ | ⟨_, _, rfl⟩
  · exact .inl hrst
  · simp [hoff] at he
  · simp [hoff] at he
  · rcases afterStart_phase_cases s.nextEdge.ports (afterLoad s.nextEdge.ports s.dropEdge) with heq | ⟨hst, hn, heq⟩
    · exact absurd (by simp [heq, hs]) ht
    · exact .inr ⟨hst, by simpa using hn, by simp [heq]⟩

end

/-- Settles O30: DONE is entered by a halting move alone, and left by reset and START alone. -/
theorem haltIsTerminal : Obligations.HaltIsTerminal := by
  refine ⟨fun _ _ => rfl, fun s t hs h hns hnt => ?_, fun s t => step_leaves_done⟩
  have hm := step_enters_done h hns hnt
  obtain ⟨hL, _⟩ := hm.frame
  obtain ⟨hhdr, hmode, hrem⟩ := hm.of_enters_done hns hnt
  obtain ⟨hq, _⟩ := (phaseOk_done hnt).mp (stepKeepsInvariant s t hs h).phase_ok
  exact ⟨hmode, hrem, hL, hq, hhdr⟩

/-! ## The frame of the segments -/

/-- What a counted segment with its body in phase `p` can do when it answers: the model's own hold and EXHAUST (log entry 8), the
latch, or a move of the decoder in CNT or that body. -/
inductive SegmentMove (p : Phase) (s : State) : State → Prop where
  | hold : SegmentMove p s s
  | exhaust (hp : s.phase = .hdr) (ha : s.avail < 4) : SegmentMove p s (s.halt .exhaust)
  | latch (m : Nibble) (hp : s.phase = .hdr) : SegmentMove p s (latchMode m (s.advance 4))
  | move {t : State} (hp : s.phase = .cnt ∨ s.phase = p) (hne : s.phase ≠ .hdr) (hq : s.pq = []) (hm : DecoderMove s t) :
    SegmentMove p s t

section
variable {i : Instr} {s t : State} {p : Phase}

/-- A counted segment's step in CNT and in its body is the decoder's own (R92). -/
theorem countedSegment_move {m : Nibble} {w : Nat} {body : State → Result} (hexec : exec i = countedSegment m w p body)
    (hmode : decodeMode m = i) (hbody : s.phase = p → decoderStep s = exec i s) (h : exec i s = .next t) :
    SegmentMove p s t := by
  have hmove : s.decoderEnabled = true → decoderStep s = exec i s → s.pq = [] ∧ DecoderMove s t := fun he hstep =>
    ⟨((State.decoderEnabled_iff s).mp he).2, decoderStep_move he (hstep.trans h)⟩
  rcases countedSegment_cases (hexec ▸ h) with ⟨_, rfl⟩ | ⟨_, hp, ha, rfl⟩ | ⟨_, hp, _, rfl⟩ | ⟨he, hp, hm, _⟩ |
    ⟨he, hp, hne, _⟩
  · exact .hold
  · exact .exhaust hp ha
  · exact .latch m hp
  · obtain ⟨hq, hmove⟩ := hmove he (by rw [decoderStep_cnt_eq hp, hm, hmode])
    exact .move (.inl hp) (by simp [hp]) hq hmove
  · obtain ⟨hq, hmove⟩ := hmove he (hbody hp)
    exact .move (.inr hp) hne hq hmove

/-- Each counted segment makes a segment's move, KANJI one with the skip for its body. -/
theorem exec_counted_move (hi : i.isCounted = true) (h : exec i s = .next t) :
    ∃ p, (i = .kanji → p = .kanji) ∧ SegmentMove p s t := by
  obtain ⟨hnum, halnum, hbyte, hkanji⟩ := decoderStep_body_eq s
  cases i with
  | num => exact ⟨.num, nofun, countedSegment_move (m := 1) rfl rfl hnum h⟩
  | alnum => exact ⟨.alnum, nofun, countedSegment_move (m := 2) rfl rfl halnum h⟩
  | byte => exact ⟨.byte, nofun, countedSegment_move (m := 4) rfl rfl hbyte h⟩
  | kanji => exact ⟨.kanji, fun _ => rfl, countedSegment_move (m := 8) rfl rfl hkanji h⟩
  | _ => cases hi

/-- No segment's move touches the buffer length, the capacity, the host's record or the coming inputs. -/
theorem SegmentMove.kept (h : SegmentMove p s t) :
    t.L = s.L ∧ t.cwDepth = s.cwDepth ∧ t.taken = s.taken ∧ t.inputs = s.inputs := by
  cases h with
  | hold | exhaust | latch => exact ⟨rfl, rfl, rfl, rfl⟩
  | move _ _ _ hm =>
    obtain ⟨hL, _, hdepth⟩ := hm.frame
    exact ⟨hL, hdepth, hm.output.1, hm.inputs_eq⟩

/-- A counted segment writes `hr` only at an exhausted loop head. -/
theorem SegmentMove.hr_ne (h : SegmentMove p s t) (hne : t.hr ≠ s.hr) : s.phase = .hdr ∧ s.avail < 4 ∧ t.hr = .exhaust := by
  cases h with
  | hold | latch => exact absurd rfl hne
  | exhaust hp ha => exact ⟨hp, ha, rfl⟩
  | move _ hhdr _ hm =>
    rcases hm.hr_cases with heq | ⟨_, hp, _⟩ | ⟨_, hp, _⟩ | ⟨_, hp, _⟩
    · exact absurd heq hne
    all_goals exact absurd hp hhdr

/-- A counted segment writes `mode` only at the loop head (R24, R94). -/
theorem SegmentMove.mode_ne (h : SegmentMove p s t) (hne : t.mode ≠ s.mode) : s.phase = .hdr := by
  cases h with
  | hold | exhaust => exact absurd rfl hne
  | latch _ hp => exact hp
  | move _ _ _ hm => exact (hm.mode_cases.resolve_left hne).1

/-- At the loop head a counted segment keeps `rem` (R94). -/
theorem SegmentMove.rem_eq (h : SegmentMove p s t) (hp : s.phase = .hdr) : t.rem = s.rem := by
  cases h with
  | hold | exhaust | latch => rfl
  | move _ hhdr => exact absurd hp hhdr

/-- A counted segment adds at most 3 bytes behind the queue, and only in a body that emits (R61). -/
theorem SegmentMove.pq_eq (h : SegmentMove p s t) :
    ∃ bs : List Byte, bs.length ≤ 3 ∧ t.pq = s.pq ++ bs ∧
      (bs ≠ [] → s.phase = p ∧ (p = .num ∨ p = .alnum ∨ p = .byte)) := by
  cases h with
  | hold | exhaust | latch => exact ⟨[], Nat.zero_le _, (List.append_nil _).symm, fun hne => absurd rfl hne⟩
  | move hp _ hq hm =>
    obtain ⟨_, bs, hpq, hphase⟩ := hm.output
    have hbs : t.pq = bs := by simpa [hq] using hpq
    refine ⟨bs, hbs ▸ hm.pq_le hq, hpq, fun hne => ?_⟩
    have hbody := hphase hne
    rcases hp with hp | hp
    · simp [hp] at hbody
    · exact ⟨hp, hp ▸ hbody⟩

/-- A halting segment writes no more than a halt and the cursor (R96, R98). -/
theorem exec_halting_frame (hi : i.isHalting = true) (h : exec i s = .next t) :
    t.L = s.L ∧ t.cwDepth = s.cwDepth ∧ t.taken = s.taken ∧ t.inputs = s.inputs ∧ t.mode = s.mode ∧ t.rem = s.rem ∧
      t.pq = s.pq := by
  obtain ⟨r, hr⟩ := exec_of_isHalting hi
  rcases haltSegment_cases (hr ▸ h) with ⟨_, rfl⟩ | ⟨_, _, _, rfl⟩ | ⟨_, _, _, rfl⟩ <;>
    exact ⟨rfl, rfl, rfl, rfl, rfl, rfl, rfl⟩

/-- No segment is both a halting and a counted one. -/
theorem isCounted_of_isHalting (h : i.isHalting = true) : i.isCounted = false := by
  cases i with
  | num | alnum | byte | kanji => cases h
  | _ => rfl

end

/-- Settles O48: the halting segments by `exec_halting_frame`, the counted ones by their move. -/
theorem segmentFrame : Obligations.SegmentFrame := by
  intro i s t hi h
  have hcw : ∀ a, Memory.read t.cw a = Memory.read s.cw a := fun a => by rw [exec_segment_cw hi h]
  rcases Bool.or_eq_true_iff.mp hi with hh | hc
  · obtain ⟨hL, hdepth, htaken, hinputs, hmode, hrem, hpq⟩ := exec_halting_frame hh h
    exact ⟨hL, hdepth, htaken, hinputs, hcw, fun _ => ⟨hmode, hrem, hpq⟩,
      fun hc => by simp [isCounted_of_isHalting hh] at hc, fun _ => hpq⟩
  · obtain ⟨p, hkanji, hm⟩ := exec_counted_move hc h
    obtain ⟨hL, hdepth, htaken, hinputs⟩ := hm.kept
    obtain ⟨bs, hlen, hpq, hbody⟩ := hm.pq_eq
    have hquiet : ¬(s.phase = p ∧ (p = .num ∨ p = .alnum ∨ p = .byte)) → t.pq = s.pq := fun hno => by
      rw [hpq, not_imp_comm.mp hbody hno, List.append_nil]
    refine ⟨hL, hdepth, htaken, hinputs, hcw, fun hh => by simp [isCounted_of_isHalting hh] at hc,
      fun _ => ⟨hm.hr_ne, hm.mode_ne, fun hp => ⟨hm.rem_eq hp, hquiet ?_⟩, fun hp => hquiet ?_, bs, hlen, hpq⟩,
      fun hk => hquiet ?_⟩
    · rintro ⟨rfl, hemits⟩
      simp [hp] at hemits
    · rintro ⟨rfl, hemits⟩
      simp [hp] at hemits
    · simp [hkanji hk]

end Sys2Proof.Machine
end

section
/-! PROOFS. Numeric mode: its body step, form by form (O32), the bytes of its groups (O33), and Numeric and Alphanumeric bodies
that the end of the buffer cuts (O34). -/

namespace Sys2Proof.Machine

/-! ## The body step -/

section
variable {s : State}

/-- A body step that reads a loaded field, emits its bytes into an empty queue and sets `rem`: the whole next state. -/
theorem withField_emit_of_loaded {n : Nat} (hq : s.pq = []) (hl : s.FieldLoaded n) (bytes : Nat → List Byte) (r : Nat) :
    (withField n s fun v s' => .next ((s'.emit (bytes v)).setRem r)) =
      .next { s with cur := s.cur + min n s.avail, pq := bytes (s.field n), rem := BitVec.ofNat 10 r } := by
  rw [withField_of_loaded _ hl]
  simp [State.advance, State.emit, State.setRem, hq]

/-- NUM in its body phase with nothing pending is its body step (R92). -/
theorem exec_num_body (hp : s.phase = .num) (hq : s.pq = []) : exec .num s = numBody s :=
  countedSegment_body ((State.decoderEnabled_iff s).mpr ⟨(State.busy_iff s).mpr (by simp [hp]), hq⟩) hp nofun nofun

end

/-- Settles O32: each count takes its own branch of `numBody`, which reads one field and emits its group. -/
theorem numericBodyStep : Obligations.NumericBodyStep := by
  intro s hp hq
  rw [exec_num_body hp hq, numBody]
  refine ⟨fun h0 => if_pos h0, fun h3 hl => ?_, fun h2 hl => ?_, fun h1 hl => ?_⟩
  · rw [if_neg (by omega), if_pos h3]
    exact withField_emit_of_loaded hq hl tripleBytes _
  · rw [if_neg (by omega), if_neg (by omega), if_pos h2]
    exact withField_emit_of_loaded hq hl pairBytes 0
  · rw [if_neg (by omega), if_neg (by omega), if_neg (by omega)]
    exact withField_emit_of_loaded hq hl (fun v => [digit v]) 0

/-! ## The bytes of the groups -/

/-- `D(d)` fits a byte whole for every `d` below 208 (R112). -/
theorem digit_toNat {d : Nat} (h : d < 208) : (digit d).toNat = 0x30 + d := by
  rw [digit, BitVec.toNat_ofNat]
  exact Nat.mod_eq_of_lt (by omega)

/-- A pair's first byte is its tens', whatever they are (R114, R117). -/
theorem pairBytes_of_tens {d v : Nat} (hlo : 10 * d ≤ v) (hhi : v ≤ 10 * d + 9) : pairBytes v = [digit d, digit (v % 10)] := by
  rw [pairBytes, show v / 10 = d by omega]

/-- Settles O33: the leading quotient of each range is one number, 10 to 12, whose byte is above '9'. -/
theorem numericDigitBytes : Obligations.NumericDigitBytes := by
  refine ⟨fun d hd => digit_toNat (by omega), fun v hlo hhi => ?_, fun v hlo hhi => pairBytes_of_tens (d := 10) hlo hhi,
    fun v hlo hhi => pairBytes_of_tens (d := 11) hlo hhi,
    fun v hlo hhi => pairBytes_of_tens (d := 12) hlo (by omega), fun v hlo hhi => ?_⟩
  · rw [tripleBytes, show v / 100 = 10 by omega]
    rfl
  · rw [digit, show 0x30 + v = 0x3A + (v - 10) by omega]

/-! ## Cut bodies -/

section
variable {buf : List Byte}

/-- Past the end a read answers 0 and leaves the cursor where it is (R56). -/
theorem refRead_of_end_le {cur : Nat} (h : 8 * buf.length ≤ cur) (n : Nat) : refRead buf cur n = (0, cur) := by
  simp [refRead, refAvail, Nat.sub_eq_zero_of_le h, refBits]

/-- A Numeric body emits its whole count, however short its reads (R118). -/
theorem refNum_length (buf : List Byte) (c cur : Nat) : (refNum buf c cur).1.length = c := by
  induction c, cur using refNum.induct buf with
  | case1 | case2 | case3 => rfl
  | case4 c cur ih => rw [refNum, List.length_append, tripleBytes_length, ih, Nat.add_comm]

/-- Past the end every group of a Numeric body has the value 0, whose digits are '0' (R118). -/
theorem refNum_of_end_le (c : Nat) {cur : Nat} (h : 8 * buf.length ≤ cur) :
    refNum buf c cur = (List.replicate c 0x30, cur) := by
  have hsingle : digit 0 = 0x30 := by decide
  have hpair : pairBytes 0 = [0x30, 0x30] := by decide
  have htriple : tripleBytes 0 = [0x30, 0x30, 0x30] := by decide
  induction c, cur using refNum.induct buf with
  | case1 => rfl
  | case2 cur =>
    rw [refNum, refRead_of_end_le h, hsingle]
    rfl
  | case3 cur =>
    rw [refNum, refRead_of_end_le h, hpair]
    rfl
  | case4 c cur ih =>
    rw [refRead_of_end_le h] at ih
    rw [refNum, refRead_of_end_le h, htriple, ih h]
    rfl

/-- Past the end every group of an Alphanumeric body has the value 0, whose characters are '0' (R130). -/
theorem refAlnum_of_end_le (c : Nat) {cur : Nat} (h : 8 * buf.length ≤ cur) :
    refAlnum buf c cur = (List.replicate c 0x30, cur) := by
  have hsingle : antBytes 0 = [0x30] := by decide
  have hpair : antPairBytes 0 = [0x30, 0x30] := by decide
  induction c, cur using refAlnum.induct buf with
  | case1 => rfl
  | case2 cur =>
    rw [refAlnum, refRead_of_end_le h, hsingle]
    rfl
  | case3 c cur ih =>
    rw [refRead_of_end_le h] at ih
    rw [refAlnum, refRead_of_end_le h, hpair, ih h]
    rfl

end

/-- Settles O34: the count of a Numeric body by `refNum_length`, both bodies past the end by the reads there. -/
theorem cutBodiesEmitWholeCount : Obligations.CutBodiesEmitWholeCount :=
  ⟨refNum_length, fun _ c _ h => ⟨refNum_of_end_le c h, refAlnum_of_end_le c h⟩⟩

end Sys2Proof.Machine
end

section
/-! PROOFS. Alphanumeric mode: its body step, form by form (O35), the range check of its indices (O36) and its table (O37). -/

namespace Sys2Proof.Machine

/-! ## The body step -/

/-- ALNUM in its body phase with nothing pending is its body step (R92). -/
theorem exec_alnum_body {s : State} (hp : s.phase = .alnum) (hq : s.pq = []) : exec .alnum s = alnumBody s :=
  countedSegment_body ((State.decoderEnabled_iff s).mpr ⟨(State.busy_iff s).mpr (by simp [hp]), hq⟩) hp nofun nofun

/-- Settles O35: each count takes its own branch of `alnumBody`, which reads one field and emits its characters. -/
theorem alphanumericBodyStep : Obligations.AlphanumericBodyStep := by
  intro s hp hq
  rw [exec_alnum_body hp hq, alnumBody]
  refine ⟨fun h0 => if_pos h0, fun h2 hl => ?_, fun h1 hl => ?_⟩
  · rw [if_neg (by omega), if_pos h2]
    exact withField_emit_of_loaded hq hl antPairBytes _
  · rw [if_neg (by omega), if_neg (by omega)]
    exact withField_emit_of_loaded hq hl antBytes 0

/-! ## The range check -/

/-- An index of the table gives its entry (R127). -/
theorem antBytes_of_lt {i : Nat} (h : i < 45) : antBytes i = [ant.getD i 0] := if_pos h

/-- An index past the table gives no byte (R129). -/
theorem antBytes_of_le {i : Nat} (h : 45 ≤ i) : antBytes i = [] := if_neg (Nat.not_lt.mpr h)

/-- Settles O36: a pair's second index is always in the table; its first is in it up to 2024, and is 45 above. -/
theorem alphanumericRangeCheck : Obligations.AlphanumericRangeCheck := by
  refine ⟨fun v hv => ?_, fun v hlo hhi => ⟨by omega, by omega, ?_⟩, fun v hv => antBytes_of_lt (by omega),
    fun v hlo _ => antBytes_of_le hlo⟩
  · rw [antPairBytes, antBytes_of_lt (by omega), antBytes_of_lt (by omega)]
    rfl
  · rw [antPairBytes, antBytes_of_le (by omega), antBytes_of_lt (by omega), List.nil_append]

/-! ## The table -/

/-- Settles O37: the table's bytes and the string's codes compute to the same 45 numbers. -/
theorem alphanumericTable : Obligations.AlphanumericTable := ⟨ant_length, by decide⟩

end Sys2Proof.Machine
end

section
/-! PROOFS. Byte mode: its body step, form by form (O38), and a segment that the end of the buffer cuts (O39). -/

namespace Sys2Proof.Machine

/-! ## The body step -/

/-- BYTE in its body phase with nothing pending is its body step (R92). -/
theorem exec_byte_body {s : State} (hp : s.phase = .byte) (hq : s.pq = []) : exec .byte s = byteBody s :=
  countedSegment_body ((State.decoderEnabled_iff s).mpr ⟨(State.busy_iff s).mpr (by simp [hp]), hq⟩) hp nofun nofun

/-- Settles O38: the count and the unread bits pick the branch of `byteBody`; a byte's read is never short (R142). -/
theorem byteBodyStep : Obligations.ByteBodyStep := by
  intro s hp hq
  rw [exec_byte_body hp hq, byteBody, wByte]
  refine ⟨fun h0 => if_pos h0, fun h0 ha => ?_, fun h0 ha hl => ?_⟩
  · rw [if_neg (by omega), if_pos ha]
    rfl
  · have hread := withField_emit_of_loaded hq hl (fun v => [BitVec.ofNat 8 v]) (s.rem.toNat - 1)
    rw [Nat.min_eq_left ha] at hread
    rw [if_neg (by omega), if_neg (by omega)]
    exact hread

/-! ## A cut segment -/

section
variable {buf : List Byte} {cur : Nat}

/-- A Byte body reads the bytes of its count that are whole in the buffer, each where it stands, and leaves the cursor after
the last of them (R141, R142). -/
theorem refByte_eq (buf : List Byte) (c cur : Nat) :
    refByte buf c cur =
      ((List.range (min c (refAvail buf cur / 8))).map fun j => BitVec.ofNat 8 (refRead buf (cur + 8 * j) 8).1,
        cur + 8 * min c (refAvail buf cur / 8)) := by
  induction c generalizing cur with
  | zero => simp [refByte]
  | succ c ih =>
    rw [refByte, wByte]
    split
    · next ha => simp [Nat.div_eq_of_lt ha]
    · next ha =>
      have hcur : (refRead buf cur 8).2 = cur + 8 := by rw [refRead_snd, Nat.min_eq_left (Nat.not_lt.mp ha)]
      have hwhole : min (c + 1) (refAvail buf cur / 8) = min c (refAvail buf (cur + 8) / 8) + 1 := by
        unfold refAvail at *
        omega
      rw [hcur, ih, hwhole, List.range_succ_eq_map]
      simp [Function.comp_def, Nat.mul_add, Nat.add_assoc, Nat.add_comm]

/-- Past the end a segment's count is 0, so it emits no more than what follows it (R56). -/
theorem refSegment_fst_of_end_le {rest : Nat → List Byte × HaltReason} (m : Nat) (h : 8 * buf.length ≤ cur)
    (hrest : ∀ c, 8 * buf.length ≤ c → (rest c).1 = []) : (refSegment buf m cur rest).1 = [] :=
  match m with
  | 1 | 2 | 4 => by simpa [refSegment, refRead_of_end_le h, refNum, refAlnum, refByte, refThen_nil] using hrest cur h
  | 8 => by simpa [refSegment, refRead_of_end_le h, refKanji, refThen] using hrest _ (by omega)
  | 0 | 3 | 5 | 6 | 7 | _ + 9 => rfl

/-- With at most a mode indicator left to read, a decode emits nothing more (R93, R97). -/
theorem refFrom_fst_of_avail_le (h : refAvail buf cur ≤ 4) : (refFrom buf cur).1 = [] := by
  have hend : ∀ c, 8 * buf.length ≤ c → (refFrom buf c).1 = [] := fun c hc => by
    rw [refFrom_eq, if_pos (by unfold refAvail; omega)]
  rw [refFrom_eq]
  split
  · rfl
  · next ha =>
    have hmode := refAvail_refRead_mode ha
    exact refSegment_fst_of_end_le _ (by unfold refAvail at *; omega) hend

end

/-- Settles O39: the body emits the whole bytes that are there; on a 4-bit boundary it leaves 0 or 4 bits, too few for a
segment that emits. -/
theorem cutByteSegmentTruncates : Obligations.CutByteSegmentTruncates := by
  intro buf s hs hfits hmode hcut
  have hleft : refAvail buf (s + 12) = 8 * buf.length - (s + 12) := rfl
  have hcur : (refRead buf s 4).2 = s + 4 := by rw [refRead_snd, refAvail]; omega
  have hcount : (refRead buf (s + 4) 8).2 = s + 12 := by rw [refRead_snd, refAvail]; omega
  rw [refFrom_eq, if_neg (by unfold refAvail; omega), hmode, hcur]
  simp only [refSegment, refThen, wCcByte]
  rw [hcount, refByte_eq, hleft, Nat.min_eq_right hcut.le, refFrom_fst_of_avail_le (by unfold refAvail; omega),
    List.append_nil]

end Sys2Proof.Machine
end

section
/-! PROOFS. Kanji mode: its skip step (O40). -/

namespace Sys2Proof.Machine

/-- KANJI in its body phase with nothing pending is its skip step (R92). -/
theorem exec_kanji_body {s : State} (hp : s.phase = .kanji) (hq : s.pq = []) : exec .kanji s = kanjiBody s :=
  countedSegment_body ((State.decoderEnabled_iff s).mpr ⟨(State.busy_iff s).mpr (by simp [hp]), hq⟩) hp nofun nofun

/-- Settles O40: `kanjiBody` is the clamped skip itself; its step reads no field, so it asks for no loaded byte. -/
theorem kanjiSkipStep : Obligations.KanjiSkipStep := by
  intro s hp hq
  rw [exec_kanji_body hp hq, kanjiBody, wKanji]
  rfl

end Sys2Proof.Machine
end

section
/-! PROOFS. The host commands: a waiting byte's stability (O8), LOAD and START at one edge (O44) and while busy (O45), the
commands' frames (O49), the step that runs decoded commands (O20), and LOAD, START and POP themselves (O41, O42, O43). -/

namespace Sys2Proof.Machine

/-! ## Each command, with and without effect -/

section
variable {s : State}

/-- LOAD at an address of the buffer takes effect when no decode is in progress (R161). -/
theorem execLoad_of_not_busy {a : Nat} (b : Byte) (hb : s.busy = false) (ha : a < s.cwDepth) :
    execLoad a b s = .next { s with cw := Memory.write s.cw a b } := by
  simp [execLoad, hb, ha]

/-- LOAD has no effect while busy or outside the buffer (R161, R164). -/
theorem execLoad_of_no_effect {a : Nat} (b : Byte) (h : s.busy = true ∨ s.cwDepth ≤ a) : execLoad a b s = .next s :=
  if_pos (by simpa using h)

/-- START has no effect while busy or beyond the buffer (R162, R163). -/
theorem execStart_of_no_effect {n : Nat} (h : s.busy = true ∨ s.cwDepth < n) : execStart n s = .next s :=
  if_pos (by simpa using h)

/-- POP hands over the front of the queue (R166). -/
theorem execPop_cons {b : Byte} {rest : List Byte} (h : s.pq = b :: rest) :
    execPop s = .next { s with pq := rest, taken := s.taken ++ [b] } := by
  simp [execPop, h]

/-- POP of an empty queue does nothing (R166). -/
theorem execPop_nil (h : s.pq = []) : execPop s = .next s := by
  simp [execPop, h]

end

/-- Settles O41: after the write, its address reads the byte and every other address what it read. -/
theorem loadWritesOneByte : Obligations.LoadWritesOneByte := by
  refine fun a b s => ⟨fun hb ha => ?_, execLoad_of_no_effect b⟩
  exact ⟨_, execLoad_of_not_busy b hb ha, rfl, Memory.read_write_same .., fun _ hne => Memory.read_write_ne _ b hne⟩

/-- Settles O42: `execStart_of_not_busy` and its no-effect cases; HDR is a busy phase. -/
theorem startBeginsDecode : Obligations.StartBeginsDecode := by
  refine fun n s => ⟨fun hb hn => ?_, execStart_of_no_effect⟩
  exact ⟨_, execStart_of_not_busy hb hn, rfl, rfl, rfl, rfl⟩

/-- Settles O43: the front byte is what out_data holds (O6) and what POP hands over. -/
theorem popTakesFront : Obligations.PopTakesFront := by
  refine fun s => ⟨fun b rest hq => ?_, execPop_nil⟩
  obtain ⟨_, hdata, _⟩ := outputPortsOfState s
  exact ⟨hdata b rest hq, _, execPop_cons hq, rfl, by simp [State.outValid]⟩

/-- Settles O49: the cases of each command; LOAD's write and POP's hand-over are the only changes of their fields. -/
theorem hostCommandFrame : Obligations.HostCommandFrame := by
  refine ⟨fun a b s t h => ?_, fun n s t h => ?_, fun s t h => ?_⟩
  · rcases execLoad_cases a b s with ⟨he, _⟩ | ⟨_, _, he⟩ <;> cases he.symm.trans h
    · exact ⟨rfl, fun _ _ => rfl⟩
    · exact ⟨rfl, fun _ hne => Memory.read_write_ne _ b hne⟩
  · rcases execStart_cases n s with ⟨he, _⟩ | ⟨_, _, he⟩ <;> cases he.symm.trans h
    · exact ⟨rfl, rfl, fun _ => rfl⟩
    · exact ⟨rfl, rfl, fun _ => rfl⟩
  · rcases execPop_cases s with ⟨_, he⟩ | ⟨b, rest, hq, he⟩ <;> cases he.symm.trans h
    · exact ⟨rfl, rfl, fun _ => rfl⟩
    · exact ⟨rfl, by simp [hq], fun _ => rfl⟩

/-! ## The commands of an edge -/

/-- An instruction's code decodes to it alone (R72, R161, R162, R166). -/
theorem decode_encode (i : Instr) : decode (encode i) = [i] := by
  cases i <;> rfl

@[simp] theorem execAll_singleton (i : Instr) (s : State) : execAll [i] s = exec i s := by
  unfold execAll
  cases exec i s <;> rfl

section
variable {s : State} {p : PortIn}

/-- With no decoder step to take, a step without reset is the edge's commands (R186). -/
theorem step_eq_execAll (he : s.decoderEnabled = false) (hrst : s.nextEdge.ports.rst = false) :
    step s = execAll (decodePorts s.nextEdge.ports) s.dropEdge := by
  simp [step_eq, execAll_decodePorts hrst, he, hrst]

/-- A machine that is not busy has no decoder step to take (R92). -/
theorem decoderEnabled_of_not_busy (hb : s.busy = false) : s.decoderEnabled = false := by
  simp [State.decoderEnabled, hb]

/-- The state that a LOAD strobe leaves where it takes effect (R161). -/
theorem afterLoad_of_effect (hwe : p.cwWe = true) (hb : s.busy = false) (ha : p.cwAddr < s.cwDepth) :
    afterLoad p s = { s with cw := Memory.write s.cw p.cwAddr p.cwWdata } := by
  simp [afterLoad, hwe, hb, ha]

/-- The state that a START strobe leaves where it takes effect (R162). -/
theorem afterStart_of_effect (hst : p.start = true) (hb : s.busy = false) (hn : p.startLen ≤ s.cwDepth) :
    afterStart p s =
      { s with phase := .hdr, L := p.startLen, cur := 0, mode := 0, rem := 0, pq := [], hr := .none, taken := [] } := by
  simp [afterStart, hst, hb, hn]

/-- Without its strobe POP leaves the state as it is (R166). -/
theorem afterPop_of_not_ready (h : p.outReady = false) : afterPop p s = s := by
  simp [afterPop, h]

/-- With nothing waiting POP leaves the state as it is (R166). -/
theorem afterPop_of_pq_nil (hq : s.pq = []) : afterPop p s = s := by
  unfold afterPop
  split
  · cases s; simp_all
  · rfl

end

/-- Settles O20: `step_eq_execAll`; ports that encode one command decode to it alone. -/
theorem stepRunsDecodedCommands : Obligations.StepRunsDecodedCommands := by
  refine ⟨fun s => step_eq_execAll, fun s i he hi => ?_⟩
  have hone : decodePorts s.nextEdge.ports = [i] := by
    have := decode_encode i
    rwa [hi] at this
  have hmem : i ∈ decodePorts s.nextEdge.ports := by simp [hone]
  obtain ⟨hrst, _⟩ := mem_decodePorts.mp hmem
  rw [step_eq_execAll he hrst, hone, execAll_singleton]

/-- Settles O8: with a byte waiting the machine is busy and its decoder holds, so that POP alone could take it; DONE's own
conditions keep its queue empty. -/
theorem outputStability : Obligations.OutputStability := by
  refine ⟨fun s t hs hv hready hrst h => ?_, fun s hs hp => ?_⟩
  · have hq : s.pq ≠ [] := by simpa [State.outValid] using hv
    have ht : t = s.dropEdge := by
      rcases step_cases_of_busy (busy_of_pq_ne_nil hs.phase_ok hq) hrst h with ⟨he, _⟩ | ⟨_, ht⟩
      · exact absurd ((State.decoderEnabled_iff s).mp he).2 hq
      · rw [ht, afterPop_of_not_ready hready]
    subst ht
    exact ⟨hv, rfl, fun _ => rfl⟩
  · obtain ⟨hq, _⟩ := (phaseOk_done hp).mp hs.phase_ok
    exact ⟨hq, (done_iff s).mpr ⟨hp, by simp [hq]⟩⟩

/-- Settles O44: the edge is LOAD's write, then START, which keeps the RAM and leaves nothing for a POP to take. -/
theorem loadThenStartAtOneEdge : Obligations.LoadThenStartAtOneEdge := by
  intro s hb hrst hwe hst ha hn
  have hstep : step s = .next { s with
      phase := .hdr, L := s.nextEdge.ports.startLen, cur := 0, mode := 0, rem := 0, pq := [], hr := .none, taken := []
      inputs := s.inputs.tail, cw := Memory.write s.cw s.nextEdge.ports.cwAddr s.nextEdge.ports.cwWdata } := by
    rw [step_eq_execAll (decoderEnabled_of_not_busy hb) hrst, execAll_decodePorts hrst,
      afterLoad_of_effect (s := s.dropEdge) hwe hb ha, afterStart_of_effect hst (by exact hb) (by exact hn),
      afterPop_of_pq_nil rfl]
    rfl
  exact ⟨_, hstep, rfl, Memory.read_write_same .., fun a hne => Memory.read_write_ne _ _ hne⟩

/-- Settles O45: of a busy edge's commands POP is left (`afterStart_afterLoad_of_busy`), and no LOAD or START
port has a part in the rest of the step. -/
theorem busyIgnoresLoadAndStart : Obligations.BusyIgnoresLoadAndStart := by
  intro s e es we st a n b hb
  rw [step_eq, step_eq, afterStart_afterLoad_of_busy (by exact hb), afterStart_afterLoad_of_busy (by exact hb)]
  rfl

end Sys2Proof.Machine
end

section
/-! PROOFS. Exceptions and simultaneous events: the one fault there is (O13), IDLE and DONE without a command (O31), and POP
beside a decoder step or a START (O46). -/

namespace Sys2Proof.Machine

/-! ## How an edge can end -/

section
variable {s : State}

/-- Every edge leads to a next state, but for a decoder step whose field has an unloaded byte (R180, R183). -/
theorem step_next_or_uninitRead (hs : s.Inv) :
    (∃ t, step s = .next t) ∨
      ∃ a, step s = .fault (.uninitRead a) ∧ a < s.L ∧ Memory.read s.cw a = none ∧ s.busy = true := by
  by_cases hrst : s.nextEdge.ports.rst = true
  · exact .inl ⟨_, by rw [step_eq, if_pos hrst]⟩
  by_cases he : s.decoderEnabled = true
  · by_cases hgo : s.nextEdge.decoderGo = true
    · obtain ⟨_, hanswers, hfaults⟩ := uninitReadExactly s hs he hgo (by simpa using hrst)
      by_cases hl : s.FieldLoaded s.readWidth
      · exact .inl (hanswers hl)
      · obtain ⟨j, hj, hunloaded, _, hfault⟩ := hfaults hl
        exact .inr ⟨_, hfault, s.readByte_lt hj, hunloaded, ((State.decoderEnabled_iff s).mp he).1⟩
    · exact .inl ⟨_, by rw [step_eq, if_neg hrst, if_pos he, if_neg hgo]⟩
  · exact .inl ⟨_, by rw [step_eq, if_neg hrst, if_neg he]⟩

/-- In IDLE and DONE no decode is in progress (R36). -/
theorem busy_of_idle_or_done (hp : s.phase = .idle ∨ s.phase = .done) : s.busy = false := by
  rcases hp with hp | hp <;> simp [State.busy, hp]

/-- Where a decoder step is enabled, no strobe but reset has a part in the step (R163, R164, R186). -/
theorem step_of_enabled (he : s.decoderEnabled = true) :
    step s = if s.nextEdge.ports.rst = true then .next s.dropEdge.applyReset
      else if s.nextEdge.decoderGo = true then decoderStep s.dropEdge else .next s.dropEdge := by
  rw [step_eq, if_pos he]

/-- Where a START takes effect it leaves nothing for a POP to take: without reset the edge is LOAD, then START (R186). -/
theorem step_of_start_effect (hb : s.busy = false) (hst : s.nextEdge.ports.start = true)
    (hn : s.nextEdge.ports.startLen ≤ s.cwDepth) :
    step s = if s.nextEdge.ports.rst = true then .next s.dropEdge.applyReset
      else .next (afterStart s.nextEdge.ports (afterLoad s.nextEdge.ports s.dropEdge)) := by
  have hq : (afterStart s.nextEdge.ports (afterLoad s.nextEdge.ports s.dropEdge)).pq = [] := by
    rw [afterStart_of_effect hst (by simpa using hb) (by simpa using hn)]
  have he : ¬ s.decoderEnabled = true := ne_true_of_eq_false (decoderEnabled_of_not_busy hb)
  rw [step_eq, if_neg he, afterPop_of_pq_nil hq]

end

/-- Settles O13: `step_next_or_uninitRead` leaves no other fault, and no refusal. -/
theorem noOtherStop : Obligations.NoOtherStop := by
  intro s hs
  rcases step_next_or_uninitRead hs with ⟨t, ht⟩ | ⟨a, ha, hlt, hunloaded, hb⟩
  · simp [ht]
  · refine ⟨fun f hf => ?_, by simp [ha]⟩
    cases ha.symm.trans hf
    exact ⟨a, rfl, hlt, hunloaded, hb⟩

/-- Settles O31: with no decoder step to take and no command, the step only uses up the edge's inputs. -/
theorem idleAndDoneHold : Obligations.IdleAndDoneHold := by
  intro s hp hrst hnone
  rw [step_eq_execAll (decoderEnabled_of_not_busy (busy_of_idle_or_done hp)) hrst, hnone]
  rfl

/-- Settles O46: in either case the step is a function of the other inputs of the edge (`step_of_enabled`,
`step_of_start_effect`). -/
theorem popSharesNoEdge : Obligations.PopSharesNoEdge := by
  intro s e es r _ h
  rcases h with he | ⟨hb, hst, hn⟩
  · rw [step_of_enabled (by exact he), step_of_enabled (by exact he)]
    rfl
  · rw [step_of_start_effect (by exact hb) (by exact hst) (by exact hn),
      step_of_start_effect (by exact hb) (by exact hst) (by exact hn)]
    rfl

end Sys2Proof.Machine
end

section
/-! PROOFS. Progress to `done` (O55, O58): a measure of a decode's remaining work, decoder steps and bytes to hand over, that
every edge which serves the decoder or the host makes smaller, and that no other edge changes. -/

namespace Sys2Proof.Machine

/-! ## The work left -/

/-- No fewer than the bytes that the segment in progress still emits: 1023 from the count on, the largest count of R111. -/
def State.segmentBytes (s : State) : Nat :=
  match s.phase with
  | .idle | .done | .hdr | .kanji => 0
  | .cnt => 1023
  | .num | .alnum | .byte => s.rem.toNat

/-- No fewer than the bytes that the host still takes of a decode: those queued, the segment's, and past it at most 1023 for each
mode indicator that the unread bits have room for (R208). -/
def State.bytesLeft (s : State) : Nat := s.pq.length + s.segmentBytes + 1023 * (s.avail / 4)

/-- No fewer than the decoder steps and the bytes taken that a decode still needs until its end (R208). -/
def State.workLeft (s : State) : Nat := s.stepsLeft + s.bytesLeft

section
variable {s t : State}

theorem State.workLeft_pos (h : s.busy = true) : 0 < s.workLeft := Nat.add_pos_left (State.stepsLeft_pos h) _

/-- At the loop head with nothing queued, the work left is at most 688*L + 1 steps and 2046*L bytes (R208). -/
theorem State.workLeft_le_of_hdr (hp : s.phase = .hdr) (hq : s.pq = []) : s.workLeft ≤ 2734 * s.L + 1 := by
  have hsteps := State.stepsLeft_le_of_hdr hp
  have hbytes : s.bytesLeft ≤ 2046 * s.L := by
    simp only [State.bytesLeft, State.segmentBytes, State.avail, hp, hq, List.length_nil]
    omega
  unfold State.workLeft
  omega

/-- A decoder move queues no more bytes than it takes from what its segment still emits, but for a latched mode, which begins a
segment past its 4 bits (R94). -/
theorem DecoderMove.segmentBytes_le (h : DecoderMove s t) (hq : s.pq = []) :
    t.pq.length + t.segmentBytes ≤ s.segmentBytes ∨
      (t.pq.length + t.segmentBytes = s.segmentBytes + 1023 ∧ t.avail + 4 = s.avail) := by
  cases h with
  | exhaust | term | unsup | bodyEnd | byteAbandon | skip => exact .inl (by simp [State.segmentBytes, hq])
  | latch m _ hp ha =>
    have havail : (s.advance 4).avail + 4 = s.avail := by rw [State.avail_advance]; omega
    exact .inr ⟨by simp [State.segmentBytes, hp, hq, latchMode], havail⟩
  | count m w p hm hp =>
    have hv := s.field_lt_width w
    refine .inl ?_
    rcases hm with ⟨_, rfl, rfl⟩ | ⟨_, rfl, rfl⟩ | ⟨_, rfl, rfl⟩ | ⟨_, rfl, rfl⟩ <;>
      · simp only [State.segmentBytes, hp, hq, State.goto_phase, State.goto_rem, State.goto_pq, State.setRem_rem,
          State.setRem_pq, State.advance_pq, List.length_nil, toNat_ofNat_of_lt hv (by decide)]
        omega
  | group w k bs _ hk hkr hg =>
    have hrem := toNat_ofNat_rem_sub s.rem k
    have hlen : bs.length ≤ k := by
      rcases hg with ⟨_, _, rfl, rfl⟩ | ⟨_, _, rfl, _, rfl⟩ | ⟨_, _, rfl, _, rfl⟩ | ⟨_, _, rfl, rfl⟩ |
        ⟨_, _, rfl, _, rfl⟩ | ⟨_, _, rfl, _, rfl⟩
      · exact (tripleBytes_length _).le
      · exact (pairBytes_length _).le
      · exact Nat.le_refl 1
      · exact antPairBytes_length_le _
      · exact antBytes_length_le _
      · exact Nat.le_refl 1
    have hphase : s.phase = .num ∨ s.phase = .alnum ∨ s.phase = .byte := by tauto
    refine .inl ?_
    rcases hphase with hp | hp | hp <;>
      · simp only [State.segmentBytes, State.setRem_phase, State.emit_phase, State.advance_phase, hp, State.setRem_rem, hrem,
          State.setRem_pq, State.emit_pq, State.advance_pq, hq, List.nil_append]
        omega

/-- A decoder move with nothing queued leaves no more bytes for the host (R61, R208). -/
theorem DecoderMove.bytesLeft_le (h : DecoderMove s t) (hq : s.pq = []) (hc : s.cur ≤ 8 * s.L) :
    t.bytesLeft ≤ s.bytesLeft := by
  have hle := h.avail_le hc
  unfold State.bytesLeft
  rw [hq, List.length_nil]
  rcases h.segmentBytes_le hq with hlt | ⟨heq, hmode⟩ <;> omega

/-- Every decoder move with nothing queued leaves less work. -/
theorem DecoderMove.workLeft_lt (h : DecoderMove s t) (hq : s.pq = []) (hc : s.cur ≤ 8 * s.L) :
    t.workLeft < s.workLeft :=
  Nat.add_lt_add_of_lt_of_le (h.stepsLeft_lt hc) (h.bytesLeft_le hq hc)

/-- A byte handed over leaves less work (R166). -/
theorem afterPop_workLeft_lt {p : PortIn} (hready : p.outReady = true) (hq : s.pq ≠ []) :
    (afterPop p s).workLeft < s.workLeft := by
  have hbytes : (afterPop p s).bytesLeft < s.bytesLeft := by
    obtain ⟨b, rest, hq⟩ := List.exists_cons_of_ne_nil hq
    simp [afterPop, hready, State.bytesLeft, State.segmentBytes, State.avail, hq]
  unfold State.workLeft
  rw [afterPop_stepsLeft]
  omega

/-! ## The edges that do some of it -/

/-- The edge does what the state waits for: an enabled decoder takes its step, or the host takes a waiting byte (R210). -/
def State.servedBy (s : State) (e : Edge) : Bool :=
  (s.decoderEnabled && e.takesDecoderStep) || (s.outValid && e.ports.outReady)

theorem State.outValid_iff (s : State) : s.outValid = true ↔ s.pq ≠ [] := by simp [State.outValid]

/-- A decode in progress waits for its decoder or for the host, never for neither (R92). -/
theorem State.decoderEnabled_or_outValid (h : s.busy = true) : s.decoderEnabled = true ∨ s.outValid = true := by
  by_cases hq : s.pq = []
  · exact .inl ((State.decoderEnabled_iff s).mpr ⟨h, hq⟩)
  · exact .inr ((State.outValid_iff s).mpr hq)

/-- Without reset, an edge of a decode in progress leaves less work if it serves the state, and else changes nothing of it but
the coming inputs (R92, R163, R164, R210). -/
theorem step_workLeft_cases (hs : s.Inv) (hb : s.busy = true) (hrst : s.nextEdge.ports.rst = false)
    (h : step s = .next t) :
    (s.servedBy s.nextEdge = true ∧ t.workLeft < s.workLeft) ∨ (s.servedBy s.nextEdge = false ∧ t = s.dropEdge) := by
  rcases step_cases_of_busy hb hrst h with ⟨he, hgo, hm⟩ | ⟨hidle, rfl⟩
  · obtain ⟨_, hq⟩ := (State.decoderEnabled_iff s).mp he
    exact .inl ⟨by simp [State.servedBy, Edge.takesDecoderStep, he, hgo, hrst], hm.workLeft_lt hq hs.cur_le⟩
  · have hserved : s.servedBy s.nextEdge = (s.outValid && s.nextEdge.ports.outReady) := by
      simp [State.servedBy, Edge.takesDecoderStep, hrst, hidle]
    rw [hserved]
    cases hready : s.nextEdge.ports.outReady with
    | false => exact .inr ⟨Bool.and_false _, afterPop_of_not_ready hready⟩
    | true =>
      by_cases hq : s.pq = []
      · exact .inr ⟨by simp [State.outValid, hq], afterPop_of_pq_nil hq⟩
      · exact .inl ⟨by simpa [State.outValid] using hq, afterPop_workLeft_lt (s := s.dropEdge) hready hq⟩

/-- An edge that serves both sides serves every decode in progress. -/
theorem State.servedBy_of_serving {e : Edge} (hb : s.busy = true) (hrst : e.ports.rst = false)
    (h : e.serving = true) : s.servedBy e = true := by
  obtain ⟨hgo, hready⟩ : e.decoderGo = true ∧ e.ports.outReady = true := by simpa [Edge.serving] using h
  rcases State.decoderEnabled_or_outValid hb with he | hv
  · simp [State.servedBy, Edge.takesDecoderStep, he, hgo, hrst]
  · simp [State.servedBy, hv, hready]

/-- A halted decode that meets the invariant has `done` high: its queue is empty (R36, R61). -/
theorem State.Inv.done_of_phase (hs : s.Inv) (hp : s.phase = .done) : s.done = true := by
  obtain ⟨hq, _⟩ := (phaseOk_done hp).mp hs.phase_ok
  exact (done_iff s).mpr ⟨hp, by simp [hq]⟩

end

/-! ## Edges that serve both sides -/

/-- The serving edges among those ahead are the next one, if it serves both sides, and those after it. -/
theorem State.countP_serving_succ_le (s : State) (k : Nat) :
    (s.inputs.take (k + 1)).countP Edge.serving ≤ (s.inputs.tail.take k).countP Edge.serving + s.nextEdge.serving.toNat := by
  unfold State.nextEdge
  cases s.inputs with
  | nil => simp
  | cons e es =>
    rw [List.take_succ_cons, List.countP_cons]
    cases hserving : e.serving <;> simp [hserving]

/-- A loaded decode in progress reaches `done` once as many edges have served it as there is work left. -/
theorem reaches_done_of_serving {s : State} {k : Nat} (hs : s.Inv) (hl : s.Loaded) (hb : s.busy = true)
    (hrst : ∀ e ∈ s.inputs.take k, e.ports.rst = false)
    (hcount : s.workLeft ≤ (s.inputs.take k).countP Edge.serving) :
    ∃ j, j ≤ k ∧ ∃ t : State, core.run j s = .next t ∧ t.done = true := by
  induction k generalizing s with
  | zero => exact absurd hcount (Nat.not_le.mpr (State.workLeft_pos hb))
  | succ k ih =>
    obtain ⟨hedge, hrest⟩ := rst_of_inputs hrst
    obtain ⟨t, ht, hinv, hloaded⟩ := loadedDecodeNeverStops s hs hl
    rcases step_busy_or_done hb hedge ht with hbusy | hphase
    · have hwork : t.workLeft + s.nextEdge.serving.toNat ≤ s.workLeft := by
        rcases step_workLeft_cases hs hb hedge ht with ⟨_, hlt⟩ | ⟨hno, rfl⟩
        · have hone := s.nextEdge.serving.toNat_le
          omega
        · cases hserving : s.nextEdge.serving with
          | false => exact Nat.le_refl _
          | true => simp [State.servedBy_of_serving hb hedge hserving] at hno
      have hlater := s.countP_serving_succ_le k
      rw [← step_inputs ht] at hrest hlater
      obtain ⟨j, hj, u, hu, hdone⟩ := ih hinv (hloaded hb) hbusy hrest (by omega)
      exact ⟨j + 1, Nat.succ_le_succ hj, u, (run_succ_of_step ht j).trans hu, hdone⟩
    · exact ⟨1, Nat.succ_le_succ (Nat.zero_le k), t, run_succ_of_step ht 0, hinv.done_of_phase hphase⟩

/-- Settles O55: at the loop head the work left is at most the bound, and every edge that serves both sides leaves less. -/
theorem servedDecodeReachesDone : Obligations.ServedDecodeReachesDone := by
  intro s k hs hl hp hrst hcount
  obtain ⟨hq, _⟩ := (phaseOk_hdr hp).mp hs.phase_ok
  exact reaches_done_of_serving hs hl (by simp [State.busy, hp]) hrst ((State.workLeft_le_of_hdr hp hq).trans hcount)

/-! ## Fair schedules -/

section
variable {σ : Schedule} {s : State}

/-- A schedule's run keeps the invariant. -/
theorem Schedule.run_keeps_inv {k : Nat} {t : State} (hs : s.Inv) (h : σ.run k s = .next t) : t.Inv := by
  induction k generalizing t with
  | zero => cases h; exact hs
  | succ k ih =>
    obtain ⟨u, hu, hstep⟩ := Schedule.run_of_run_succ h
    exact stepKeepsInvariant { u with inputs := [σ k] } t { ih hu with } hstep

/-- A decode that is not reset and does not fault is in progress for ever, or reaches `done` (R100). -/
theorem Schedule.busy_forever_or_reaches_done (hs : s.Inv) (hb : s.busy = true) (hruns : σ.LetsDecodeRun s) :
    (∀ k, ∃ u, σ.run k s = .next u ∧ u.busy = true) ∨
      ∃ k t, σ.run k s = .next t ∧ t.done = true ∧ ∀ j, j < k → ∃ u, σ.run j s = .next u ∧ u.busy = true := by
  classical
  by_cases hall : ∀ k, ∃ u, σ.run k s = .next u ∧ u.busy = true
  · exact .inl hall
  have hstops : ∃ k, ¬ ∃ u, σ.run k s = .next u ∧ u.busy = true := not_forall.mp hall
  have hbefore : ∀ j, j < Nat.find hstops → ∃ u, σ.run j s = .next u ∧ u.busy = true := fun j hj =>
    not_not.mp (Nat.find_min hstops hj)
  have hstop := Nat.find_spec hstops
  generalize Nat.find hstops = k at hbefore hstop
  cases k with
  | zero => exact absurd ⟨s, rfl, hb⟩ hstop
  | succ k =>
    obtain ⟨u, hu, hbu⟩ := hbefore k (Nat.lt_succ_self k)
    obtain ⟨hrst, t, ht⟩ := hruns k u hu hbu
    have hstep : step { u with inputs := [σ k] } = .next t := (Schedule.run_succ_of_run hu).symm.trans ht
    have hphase : t.phase = .done :=
      (step_busy_or_done (s := { u with inputs := [σ k] }) hbu hrst hstep).resolve_left fun hbt => hstop ⟨t, ht, hbt⟩
    exact .inr ⟨k + 1, t, ht, (Schedule.run_keeps_inv hs ht).done_of_phase hphase, hbefore⟩

/-- Along a run an edge between two busy states leaves less work, or serves nothing and keeps the state. -/
theorem Schedule.run_workLeft_cases {k : Nat} {u v : State} (hs : s.Inv) (hu : σ.run k s = .next u) (hbu : u.busy = true)
    (hv : σ.run (k + 1) s = .next v) (hbv : v.busy = true) :
    v.workLeft < u.workLeft ∨ (u.servedBy (σ k) = false ∧ v = { u with inputs := [] }) := by
  have hinv := Schedule.run_keeps_inv hs hu
  have hstep : step { u with inputs := [σ k] } = .next v := (Schedule.run_succ_of_run hu).symm.trans hv
  rcases step_workLeft_cases (s := { u with inputs := [σ k] }) { hinv with } hbu (rst_of_busy_after hstep hbv) hstep with
    ⟨_, hlt⟩ | hkept
  · exact .inl hlt
  · exact .inr hkept

/-- In a decode in progress for ever there is an edge from which on the state waits for one and the same side, and no edge serves
it: the work left cannot shrink for ever. -/
theorem Schedule.waits_unserved_of_busy_forever (hs : s.Inv) (hbusy : ∀ k, ∃ u, σ.run k s = .next u ∧ u.busy = true) :
    ∃ (k : Nat) (v : State), v.busy = true ∧ ∀ j, k ≤ j → ∃ u, σ.run j s = .next u ∧
      u.decoderEnabled = v.decoderEnabled ∧ u.outValid = v.outValid ∧ u.servedBy (σ j) = false := by
  choose u hrun hb using hbusy
  have hcases : ∀ j, (u (j + 1)).workLeft < (u j).workLeft ∨
      ((u j).servedBy (σ j) = false ∧ u (j + 1) = { u j with inputs := [] }) := fun j =>
    Schedule.run_workLeft_cases hs (hrun j) (hb j) (hrun (j + 1)) (hb (j + 1))
  have hleast : ∀ j, (u (Function.argmin fun j => (u j).workLeft)).workLeft ≤ (u j).workLeft := fun j =>
    Function.argmin_le (fun j => (u j).workLeft) j
  generalize Function.argmin (fun j => (u j).workLeft) = k at hleast
  have hkept : ∀ j, k ≤ j → (u j).workLeft = (u k).workLeft ∧ (u j).decoderEnabled = (u k).decoderEnabled ∧
      (u j).outValid = (u k).outValid := fun j hj => by
    induction j, hj using Nat.le_induction with
    | base => exact ⟨rfl, rfl, rfl⟩
    | succ j _ ih =>
      obtain ⟨hwork, he, hv⟩ := ih
      rcases hcases j with hlt | ⟨_, heq⟩
      · have := hleast (j + 1)
        omega
      · rw [heq]
        exact ⟨hwork, he, hv⟩
  refine ⟨k, u k, hb k, fun j hj => ?_⟩
  obtain ⟨hwork, he, hv⟩ := hkept j hj
  refine ⟨u j, hrun j, he, hv, ?_⟩
  rcases hcases j with hlt | ⟨hno, _⟩
  · have := hleast (j + 1)
    omega
  · exact hno

end

/-- Settles O58: a decode in progress for ever would wait for one side, its decoder or the host, from some edge on, and fairness
of that side gives an edge that serves it. -/
theorem fairDecodeReachesDone : Obligations.FairDecodeReachesDone := by
  intro σ s hs hb hdecoder hhost hruns
  refine (Schedule.busy_forever_or_reaches_done hs hb hruns).resolve_left fun hbusy => ?_
  obtain ⟨k, v, hbv, hwait⟩ := Schedule.waits_unserved_of_busy_forever hs hbusy
  rcases State.decoderEnabled_or_outValid hbv with he | hv
  · obtain ⟨j, hj, hfair⟩ := hdecoder k
    obtain ⟨u, hu, heu, _, hno⟩ := hwait j hj
    simp [State.servedBy, heu, he, hfair u hu (heu.trans he)] at hno
  · obtain ⟨j, hj, hfair⟩ := hhost k
    obtain ⟨u, hu, _, hvu, hno⟩ := hwait j hj
    have hready : (σ j).ports.outReady = true := hfair u hu (hvu.trans hv)
    simp [State.servedBy, hvu, hv, hready] at hno

end Sys2Proof.Machine
end

section
/-! PROOFS. What ends a decode (O4): reset writes every register, and of a busy machine's other edges the halts alone. -/

namespace Sys2Proof.Machine

/-- A decoder move that enters DONE is a halt, which gives a reason (R96, R97, R98, R100). -/
theorem DecoderMove.hr_ne_none_of_enters_done {s t : State} (h : DecoderMove s t) (hs : s.phase ≠ .done)
    (ht : t.phase = .done) : t.hr ≠ .none := by
  cases h with
  | exhaust | term | unsup => nofun
  | latch | bodyEnd | byteAbandon | skip => cases ht
  | count m w p hm => rcases hm with ⟨_, _, rfl⟩ | ⟨_, _, rfl⟩ | ⟨_, _, rfl⟩ | ⟨_, _, rfl⟩ <;> cases ht
  | group => exact absurd ht hs

/-- Settles O4: a reset edge is `State.applyReset` whatever its other inputs are, and no other edge leaves a decode in progress
but by entering DONE (`step_busy_or_done`), which a halting move does. -/
theorem resetEdgeResetsAll : Obligations.ResetEdgeResetsAll := by
  refine ⟨fun s hrst => ?_, fun s t hb hrst h => ?_⟩
  · rw [step_eq, if_pos hrst]
    rfl
  · rcases step_busy_or_done hb hrst h with hbusy | hphase
    · exact .inl hbusy
    · have hs : s.phase ≠ .done := ((State.busy_iff s).mp hb).2
      exact .inr ⟨hphase, (step_enters_done h hs hphase).hr_ne_none_of_enters_done hs hphase⟩

end Sys2Proof.Machine
end

section
/-! PROOFS. The bound on a decode's output (O52), on the reference function: a body of at most 1023 bytes for each mode
indicator. -/

namespace Sys2Proof.Machine

section
variable {buf : List Byte}

/-- A read's value fits its nominal width (R55, R56). -/
theorem refRead_lt_width (buf : List Byte) (cur w : Nat) : (refRead buf cur w).1 < 2 ^ w :=
  (refRead_lt buf cur w).trans_le (Nat.pow_le_pow_right (by decide) (Nat.min_le_left ..))

/-- An Alphanumeric body emits no more than its count, out-of-range indices giving nothing (R129). -/
theorem refAlnum_length_le (buf : List Byte) (c cur : Nat) : (refAlnum buf c cur).1.length ≤ c := by
  induction c, cur using refAlnum.induct buf with
  | case1 => exact Nat.le_refl 0
  | case2 cur => exact antBytes_length_le _
  | case3 c cur ih =>
    have hpair := antPairBytes_length_le (refRead buf cur wAn2).1
    rw [refAlnum, List.length_append]
    omega

/-- A Byte body emits no more than its count (R142). -/
theorem refByte_length_le (buf : List Byte) (c cur : Nat) : (refByte buf c cur).1.length ≤ c := by
  rw [refByte_eq, List.length_map, List.length_range]
  exact Nat.min_le_left ..

/-- A segment by itself emits at most 1023 bytes, the largest count there is (R95, R111). -/
theorem refSegment_alone_length_le (buf : List Byte) (m cur : Nat) (r : HaltReason) :
    (refSegment buf m cur fun _ => ([], r)).1.length ≤ 1023 := by
  have hcount : ∀ w ≤ 10, (refRead buf cur w).1 ≤ 1023 := fun w hw =>
    Nat.le_of_lt_succ ((refRead_lt_width buf cur w).trans_le (Nat.pow_le_pow_right (by decide) hw))
  match m with
  | 1 => simpa [refSegment, refThen, refNum_length] using hcount 10 (by decide)
  | 2 => simpa [refSegment, refThen] using (refAlnum_length_le ..).trans (hcount 9 (by decide))
  | 4 => simpa [refSegment, refThen] using (refByte_length_le ..).trans (hcount 8 (by decide))
  | 8 => simp [refSegment, refThen, refKanji]
  | 0 | 3 | 5 | 6 | 7 | _ + 9 => exact Nat.zero_le _

/-- A segment emits at most 1023 bytes more than what follows it, from a cursor with no more bits unread. -/
theorem refSegment_length_le {m cur n : Nat} {rest : Nat → List Byte × HaltReason}
    (h : ∀ c, refAvail buf c ≤ refAvail buf cur → (rest c).1.length ≤ n) :
    (refSegment buf m cur rest).1.length ≤ 1023 + n := by
  rcases refSegment_cases buf m cur with ⟨r, _, hr⟩ | ⟨body, hle, hbody⟩
  · rw [hr]
    exact Nat.zero_le _
  · have halone := refSegment_alone_length_le buf m cur .none
    rw [hbody, refThen, List.append_nil] at halone
    rw [hbody, refThen, List.length_append]
    exact Nat.add_le_add halone (h _ hle)

/-- From any cursor a decode emits at most 1023 bytes for each mode indicator that the unread bits have room for (R101, R208). -/
theorem refLoop_length_le (fuel cur : Nat) : (refLoop buf fuel cur).1.length ≤ 1023 * (refAvail buf cur / 4) := by
  induction fuel generalizing cur with
  | zero => exact Nat.zero_le _
  | succ fuel ih =>
    simp only [refLoop, wMode]
    split
    · exact Nat.zero_le _
    · next ha =>
      have hmode := refAvail_refRead_mode ha
      have hsegment := refSegment_length_le (buf := buf) (m := (refRead buf cur 4).1) (cur := (refRead buf cur 4).2)
        (rest := refLoop buf fuel) fun c hc => (ih c).trans (Nat.mul_le_mul_left 1023 (Nat.div_le_div_right hc))
      omega

end

/-- Settles O52: the loop begins with `8*L` bits unread, room for `2*L` mode indicators. -/
theorem outputLengthBound : Obligations.OutputLengthBound := by
  intro buf
  have hbound : (refDecode buf).1.length ≤ 1023 * (8 * buf.length / 4) := refLoop_length_le ..
  omega

end Sys2Proof.Machine
end
